-- ==== Sys2Proof/Word.lean ====
section
/-! DEFINITION. The word types of the block: every host register is a 32-bit word (R8, R20) and the input
buffer holds 8-bit bytes (R8, R50). -/

namespace Sys2Proof

/-- A host-visible register, the CRC register, the index register: 32 bits (R8, R20, R30). -/
abbrev Word := BitVec 32

/-- One byte of the input buffer (R8, R50). -/
abbrev Byte := BitVec 8

end Sys2Proof
end

