-- ==== Sys2Proof/Syntax.lean ====
section
/-! DEFINITION. The instructions: one constructor for each row of `spec/opcode_table.json`, the nineteen host bus
transactions (format `HBUS`, R70) and the five engine steps (format `FSM`, R74). -/

namespace Sys2Proof

/-- The eight host-visible registers (R20). -/
inductive Reg where
  | cmd
  | init
  | poly
  | start
  | end_
  | len
  | status
  | result
  deriving DecidableEq, Repr

/-- One constructor for each row of the opcode table. A write carries its `DATA`. A read carries nothing, since the
`DATA` of its request is ignored (R70, R79). An engine step carries nothing: its operands are hidden state. -/
inductive Instr where
  /-- `WR_CMD` with a width other than 8, 16 and 32 (R100; the three widths are rows of their own, R78). -/
  | wrCmd (data : Word)
  /-- `CRC8`: a write of `CMD` with 8 (R101). -/
  | crc8
  /-- `CRC16`: a write of `CMD` with 16 (R102). -/
  | crc16
  /-- `CRC32`: a write of `CMD` with 32 (R103). -/
  | crc32
  | wrInit (data : Word)
  | wrPoly (data : Word)
  | wrStart (data : Word)
  | wrEnd (data : Word)
  | wrLen (data : Word)
  | wrStatus (data : Word)
  | wrResult (data : Word)
  | rdCmd
  | rdInit
  | rdPoly
  | rdStart
  | rdEnd
  | rdLen
  | rdStatus
  | rdResult
  | stepXorByte
  | stepReduce8
  | stepReduce16
  | stepReduce32
  | stepFinish
  deriving DecidableEq, Repr

end Sys2Proof
end

