-- ==== Sys2Proof/WellFormed.lean ====
section
/-! DEFINITION. Which terms of `Instr` are instructions. The one check: `wrCmd` never holds a width that has a row of
its own, because a decoder takes the row with the wider mask (R78). -/

namespace Sys2Proof

/-- The widths whose write of `CMD` is an entry point: 8, 16 and 32 (R73, R78). -/
def isEntryWidth (v : Word) : Bool := v == 8#32 || v == 16#32 || v == 32#32

/-- The instruction is one that a decoder can give (R78). -/
def Instr.wf : Instr → Bool
  | .wrCmd v => !isEntryWidth v
  | .crc8 => true
  | .crc16 => true
  | .crc32 => true
  | .wrInit _ => true
  | .wrPoly _ => true
  | .wrStart _ => true
  | .wrEnd _ => true
  | .wrLen _ => true
  | .wrStatus _ => true
  | .wrResult _ => true
  | .rdCmd => true
  | .rdInit => true
  | .rdPoly => true
  | .rdStart => true
  | .rdEnd => true
  | .rdLen => true
  | .rdStatus => true
  | .rdResult => true
  | .stepXorByte => true
  | .stepReduce8 => true
  | .stepReduce16 => true
  | .stepReduce32 => true
  | .stepFinish => true

end Sys2Proof
end

