-- ==== Sys2Proof/Decode.lean ====
section
/-! DEFINITION. The encodings of `30_encoding.md`: the two formats (`HBUS`, 38 bits, R70; `FSM`, 4 bits, R74), a decoder
that is total on both and refuses by name (R79, R83), an encoder, and the opcode table's rows as masks and matches. -/

namespace Sys2Proof

/-- An encoded instruction: a host bus transaction or a step selector. The format is known from outside the word (R80). -/
inductive Encoded where
  | hbus (w : BitVec 38)
  | fsm (f : BitVec 4)
  deriving DecidableEq, Repr

/-- What an encoded instruction stands for (R83). -/
inductive Decoded where
  /-- A row of the opcode table. -/
  | instr (i : Instr)
  /-- `HBUS` with `OFF[1:0] != 00`: illegal (R79). -/
  | misaligned
  /-- `FSM` with `PHASE = 00`: legal, and the engine agent has no step (R79). -/
  | noStep
  /-- `FSM` with `WSEL = 11` and `PHASE = 10` (R79). -/
  | unreachableSelector
  deriving DecidableEq, Repr

/-- `OFF[4:2]` of a register (R71). -/
def Reg.code : Reg → BitVec 3
  | .cmd => 0b000
  | .init => 0b001
  | .poly => 0b010
  | .start => 0b011
  | .end_ => 0b100
  | .len => 0b101
  | .status => 0b110
  | .result => 0b111

/-- The register at `OFF[4:2]`; every value is mapped (R71). -/
def regOfCode (c : BitVec 3) : Reg :=
  match c.toNat with
  | 0 => .cmd
  | 1 => .init
  | 2 => .poly
  | 3 => .start
  | 4 => .end_
  | 5 => .len
  | 6 => .status
  | _ => .result

/-- The byte offset of a register in the register window (R20, R71). -/
def Reg.off (r : Reg) : BitVec 5 := r.code ++ 0b00#2

/-- `word = (RW << 37) | (OFF << 32) | DATA` (R70). -/
def hbusWord (rw : Bool) (off : BitVec 5) (data : Word) : BitVec 38 :=
  BitVec.ofBool rw ++ (off ++ data)

/-- Field `RW`, bit 37: 1 is a write (R70). -/
def hbusRw (w : BitVec 38) : Bool := w.getLsbD 37

/-- Field `OFF`, bits 36 to 32 (R70). -/
def hbusOff (w : BitVec 38) : BitVec 5 := w.extractLsb' 32 5

/-- Field `DATA`, bits 31 to 0 (R70). -/
def hbusData (w : BitVec 38) : Word := w.extractLsb' 0 32

/-- A write of `CMD`: the row with the wider mask wins (R78). -/
def cmdWrite (v : Word) : Instr :=
  if v = 8#32 then .crc8 else if v = 16#32 then .crc16 else if v = 32#32 then .crc32 else .wrCmd v

/-- The host writes of R78, by register. -/
def hostWriteInstr (r : Reg) (v : Word) : Instr :=
  match r with
  | .cmd => cmdWrite v
  | .init => .wrInit v
  | .poly => .wrPoly v
  | .start => .wrStart v
  | .end_ => .wrEnd v
  | .len => .wrLen v
  | .status => .wrStatus v
  | .result => .wrResult v

/-- The host reads of R78, by register. -/
def hostReadInstr (r : Reg) : Instr :=
  match r with
  | .cmd => .rdCmd
  | .init => .rdInit
  | .poly => .rdPoly
  | .start => .rdStart
  | .end_ => .rdEnd
  | .len => .rdLen
  | .status => .rdStatus
  | .result => .rdResult

/-- Decode a host bus transaction. `OFF[1:0] != 00` is refused (R79), and a read ignores its request's `DATA`. -/
def decodeHbus (w : BitVec 38) : Decoded :=
  if (hbusOff w).extractLsb' 0 2 = 0#2 then
    let r := regOfCode ((hbusOff w).extractLsb' 2 3)
    .instr (if hbusRw w then hostWriteInstr r (hbusData w) else hostReadInstr r)
  else .misaligned

/-- `FSM = (WSEL << 2) | PHASE` (R74). -/
def fsmWord (wsel phase : BitVec 2) : BitVec 4 := wsel ++ phase

/-- Decode a step selector (R75, R78, R79). -/
def decodeFsm (f : BitVec 4) : Decoded :=
  match (f.extractLsb' 0 2).toNat, (f.extractLsb' 2 2).toNat with
  | 0, _ => .noStep
  | 1, _ => .instr .stepXorByte
  | 2, 0 => .instr .stepReduce8
  | 2, 1 => .instr .stepReduce16
  | 2, 2 => .instr .stepReduce32
  | 2, _ => .unreachableSelector
  | _, _ => .instr .stepFinish

/-- The decoder, total on both formats (R83). -/
def decode : Encoded → Decoded
  | .hbus w => decodeHbus w
  | .fsm f => decodeFsm f

/-- The encoder, from the encodings of R70, R71, R74 and R75. A read's request carries `DATA = 0` (R70), and a step that
takes any `WSEL` is written with `WSEL = 00`. -/
def encode : Instr → Encoded
  | .wrCmd v => .hbus (hbusWord true Reg.cmd.off v)
  | .crc8 => .hbus (hbusWord true Reg.cmd.off 8)
  | .crc16 => .hbus (hbusWord true Reg.cmd.off 16)
  | .crc32 => .hbus (hbusWord true Reg.cmd.off 32)
  | .wrInit v => .hbus (hbusWord true Reg.init.off v)
  | .wrPoly v => .hbus (hbusWord true Reg.poly.off v)
  | .wrStart v => .hbus (hbusWord true Reg.start.off v)
  | .wrEnd v => .hbus (hbusWord true Reg.end_.off v)
  | .wrLen v => .hbus (hbusWord true Reg.len.off v)
  | .wrStatus v => .hbus (hbusWord true Reg.status.off v)
  | .wrResult v => .hbus (hbusWord true Reg.result.off v)
  | .rdCmd => .hbus (hbusWord false Reg.cmd.off 0)
  | .rdInit => .hbus (hbusWord false Reg.init.off 0)
  | .rdPoly => .hbus (hbusWord false Reg.poly.off 0)
  | .rdStart => .hbus (hbusWord false Reg.start.off 0)
  | .rdEnd => .hbus (hbusWord false Reg.end_.off 0)
  | .rdLen => .hbus (hbusWord false Reg.len.off 0)
  | .rdStatus => .hbus (hbusWord false Reg.status.off 0)
  | .rdResult => .hbus (hbusWord false Reg.result.off 0)
  | .stepXorByte => .fsm (fsmWord 0b00 0b01)
  | .stepReduce8 => .fsm (fsmWord 0b00 0b10)
  | .stepReduce16 => .fsm (fsmWord 0b01 0b10)
  | .stepReduce32 => .fsm (fsmWord 0b10 0b10)
  | .stepFinish => .fsm (fsmWord 0b00 0b11)

/-- A row of the opcode table: the words whose bits under the mask equal the match. -/
inductive Row where
  | hbus (bits mask : BitVec 38)
  | fsm (bits mask : BitVec 4)
  deriving DecidableEq, Repr

/-- The encoded instruction is a word of the row. -/
def Row.covers : Row → Encoded → Bool
  | .hbus bits mask, .hbus w => w &&& mask == bits
  | .fsm bits mask, .fsm f => f &&& mask == bits
  | .hbus _ _, .fsm _ => false
  | .fsm _ _, .hbus _ => false

/-- Some word belongs to both rows. -/
def Row.overlaps : Row → Row → Bool
  | .hbus b m, .hbus b' m' => (b ^^^ b') &&& (m &&& m') == 0
  | .fsm b m, .fsm b' m' => (b ^^^ b') &&& (m &&& m') == 0
  | .hbus _ _, .fsm _ _ => false
  | .fsm _ _, .hbus _ _ => false

/-- Every bit that the first row fixes, the second fixes too: its mask is as wide or wider (R78). -/
def Row.maskWithin : Row → Row → Bool
  | .hbus _ m, .hbus _ m' => m &&& m' == m
  | .fsm _ m, .fsm _ m' => m &&& m' == m
  | .hbus _ _, .fsm _ _ => false
  | .fsm _ _, .hbus _ _ => false

/-- The row of each instruction, as `spec/opcode_table.json` and the rules R100 to R118 and R135 to R139 give it. -/
def Instr.row : Instr → Row
  | .wrCmd _ => .hbus 0x2000000000 0x3F00000000
  | .crc8 => .hbus 0x2000000008 0x3FFFFFFFFF
  | .crc16 => .hbus 0x2000000010 0x3FFFFFFFFF
  | .crc32 => .hbus 0x2000000020 0x3FFFFFFFFF
  | .wrInit _ => .hbus 0x2400000000 0x3F00000000
  | .wrPoly _ => .hbus 0x2800000000 0x3F00000000
  | .wrStart _ => .hbus 0x2C00000000 0x3F00000000
  | .wrEnd _ => .hbus 0x3000000000 0x3F00000000
  | .wrLen _ => .hbus 0x3400000000 0x3F00000000
  | .wrStatus _ => .hbus 0x3800000000 0x3F00000000
  | .wrResult _ => .hbus 0x3C00000000 0x3F00000000
  | .rdCmd => .hbus 0x0000000000 0x3F00000000
  | .rdInit => .hbus 0x0400000000 0x3F00000000
  | .rdPoly => .hbus 0x0800000000 0x3F00000000
  | .rdStart => .hbus 0x0C00000000 0x3F00000000
  | .rdEnd => .hbus 0x1000000000 0x3F00000000
  | .rdLen => .hbus 0x1400000000 0x3F00000000
  | .rdStatus => .hbus 0x1800000000 0x3F00000000
  | .rdResult => .hbus 0x1C00000000 0x3F00000000
  | .stepXorByte => .fsm 0b0001 0b0011
  | .stepReduce8 => .fsm 0b0010 0b1111
  | .stepReduce16 => .fsm 0b0110 0b1111
  | .stepReduce32 => .fsm 0b1010 0b1111
  | .stepFinish => .fsm 0b0011 0b0011

/-- The rows of the opcode table in its order; `DATA` of a row that takes any is written 0 and is not part of the row. -/
def opcodeRows : List Row :=
  [Instr.wrCmd 0, .crc8, .crc16, .crc32, .wrInit 0, .wrPoly 0, .wrStart 0, .wrEnd 0, .wrLen 0, .wrStatus 0,
    .wrResult 0].map Instr.row ++
  [Instr.rdCmd, .rdInit, .rdPoly, .rdStart, .rdEnd, .rdLen, .rdStatus, .rdResult].map Instr.row ++
  [Instr.stepXorByte, .stepReduce8, .stepReduce16, .stepReduce32, .stepFinish].map Instr.row

/-- The format and the word that a table row's bits stand for. An `FSM` row has 4 bits and an `HBUS` row 38 (R80), so a
word of at most 32 bits is a selector. A number that does not fit the format's width is no word of it. -/
def encodedOfTable (nbits w : Nat) : Option Encoded :=
  if nbits ≤ 32 then
    if w < 16 then some (.fsm (BitVec.ofNat 4 w)) else none
  else
    if w < 0x4000000000 then some (.hbus (BitVec.ofNat 38 w)) else none

/-- The instruction the decoder reads from a table word (none where it refuses, or where the selector has no step). -/
def decodeTableWord (nbits w : Nat) : Option Instr :=
  match encodedOfTable nbits w with
  | some x =>
    match decode x with
    | .instr i => some i
    | .misaligned => none
    | .noStep => none
    | .unreachableSelector => none
  | none => none

end Sys2Proof
end

