-- ==== Sys2Proof/Config.lean ====
section
/-! DEFINITION. What a platform or an implementation fixes: the parameters of R8, and the one value the spec does
not state. `MIN_RANGE_LEN`, `XOROUT` and `MSG_OUT_OF_BOUNDS` are the arguments of a configuration, plain data carried
unchanged in the state (log entries 1 and 4), so a statement over every state holds under every value of them. `BASE`
and `N_INSTANCES` are carried there too: the base address of each instance and the list of instances (log entries 2
and 3). -/

namespace Sys2Proof

/-- `MIN_RANGE_LEN`, an element of the set of 1 and 2 (R8, R9, D2). -/
inductive MinRange where
  | one
  | two
  deriving DecidableEq, Repr

/-- The least number of bytes an accepted range covers (R8). -/
def MinRange.toNat : MinRange → Nat
  | .one => 1
  | .two => 2

/-- The parameters of R8 but for the placement of the instances, as a model's arguments (R8, R42). -/
structure Config where
  /-- `MIN_RANGE_LEN` (R8, D2). -/
  minRange : MinRange
  /-- `XOROUT`, the value XORed into the masked register at the end of an operation (R8, D3). -/
  xorOut : Word
  /-- `MSG_OUT_OF_BOUNDS`, the host's message for the out-of-bounds failure (R162, D18). It has no default. -/
  msgOutOfBounds : String
  deriving DecidableEq, Repr

/-- The configuration with the defaults of R8, `MIN_RANGE_LEN = 2` and `XOROUT = 0`, and with the message given, which has
no default. -/
def Config.defaults (msg : String) : Config := { minRange := .two, xorOut := 0, msgOutOfBounds := msg }

/-- The mask `M_w` at the selector code `WSEL = 11`, which "belongs to no width" (R73). `STEP_FINISH` is defined at that
code (R139, U9) and its mask is not, so the mask is a FREE VALUE (log entry 5). -/
opaque Config.maskReserved : Word

end Sys2Proof
end

