-- ==== Sys2Proof/Machine/State.lean ====
section
/-! DEFINITION. The state of the platform: the instances of the block with their registers, hidden state and input
buffer (R20, R30, R174), the parameters (R8), what the agents do next (R12) and the last value a host read returned
(R70, R81). -/

namespace Sys2Proof.Machine

/-- `PHASE` (R30, R75). -/
inductive Phase where
  | idle
  | xorByte
  | reduce
  | finish
  deriving DecidableEq, Repr

/-- `WSEL` (R30, R73). `reserved` is the code `11`, which belongs to no width and is never written (R32). -/
inductive WSel where
  | w8
  | w16
  | w32
  | reserved
  deriving DecidableEq, Repr

/-- The input buffer `BUF`: the bytes at their indices, indices strictly rising. An index that is not listed holds no byte:
it lies past the real end of the buffer (R50; log entry 6). -/
abbrev Memory := List Host.Cell

/-- One instance of `crc_serial_engine`. -/
structure Engine where
  /-- `BASE`, the platform address of the 32-byte register window (R8, R58). No step changes it. -/
  base : Nat
  /-- `CMD`, offset 0x00 (R21). -/
  cmd : Word
  /-- `INIT`, offset 0x04 (R22). -/
  init : Word
  /-- `POLY`, offset 0x08 (R23). -/
  poly : Word
  /-- `START`, offset 0x0C (R24). -/
  start : Word
  /-- `END`, offset 0x10 (R25). -/
  end_ : Word
  /-- `LEN`, offset 0x14 (R26). -/
  len : Word
  /-- `STATUS`, offset 0x18 (R27). -/
  status : Word
  /-- `RESULT`, offset 0x1C (R28). -/
  result : Word
  /-- `PHASE` (R30). -/
  phase : Phase
  /-- `WSEL` (R30). -/
  wsel : WSel
  /-- `CRC`, the running CRC register (R30, R31). -/
  crc : Word
  /-- `IDX`, the index of the byte being reduced (R30, R33). -/
  idx : Word
  /-- `BIT`, the reductions already done on the current byte (R30, R34). -/
  bit : BitVec 3
  /-- `BUF`, the input buffer of this instance (R50, R174). It is host memory: reset leaves it alone (R40). -/
  buf : Memory
  /-- The window of R196 is open: a write of `CMD` has been accepted, and no read of `STATUS` has returned `BUSY = 0` since.
  While it is, no agent may write `BUF`. A reset closes it (log entry 12). No step of the block reads it. -/
  bufHeld : Bool
  deriving DecidableEq, Repr

/-- One access of the host to the platform's address space, before it is known to be an `HBUS` transaction (R55, R70). -/
structure Access where
  /-- A write (true) or a read (R70). -/
  write : Bool
  /-- The platform address. -/
  addr : Nat
  /-- How many bits the access moves: 32 for every access this spec has (R55, R56). -/
  bits : Nat
  /-- The value written; ignored by a read (R70). -/
  data : Word
  deriving DecidableEq, Repr

/-- One atomic step of one agent (R12). Instances are numbered in the order they stand in the state. -/
inductive Event where
  /-- The host makes one bus access (R12, R70). -/
  | bus (a : Access)
  /-- The engine agent of instance `k` takes its step (R12, R35). -/
  | engine (k : Nat)
  /-- The platform resets instance `k` (R190). -/
  | reset (k : Nat)
  /-- The host, or any other agent, writes one byte of the `BUF` of instance `k` (R196). -/
  | bufWrite (k : Nat) (a : Nat) (b : Byte)
  /-- The host fills the `BUF` of instance `k` with an input (R121, R192). -/
  | bufFill (k : Nat) (bytes : List Byte)
  deriving DecidableEq, Repr

/-- The state of the platform. `left`, `eng` and `right` are its instances in order, at least one (R8, R174); `eng` is
the one that the step being taken acts on. -/
structure State where
  /-- `MIN_RANGE_LEN`, `XOROUT` and `MSG_OUT_OF_BOUNDS` (R8). No step changes them. DESIGN CHOICE: one value of each for the
  whole platform. R8 does not say whether two instances of one platform may differ in them (log entry 1). -/
  cfg : Config
  /-- The instances before the selected one. -/
  left : List Engine
  /-- The selected instance. -/
  eng : Engine
  /-- The instances after the selected one. -/
  right : List Engine
  /-- The steps that the agents take next, in order: the interleaving of R12, as plain data (log entry 7). -/
  sched : List Event
  /-- The last value a host read returned (R70, R81); none before the first read. -/
  lastRead : Option Word
  deriving DecidableEq, Repr

/-- Why the machine stops (R177). -/
inductive Fault where
  /-- Raised when the host or another agent writes `BUF` while the instance is busy (R177), or before a read of `STATUS` has
  returned `BUSY = 0` since the command (R196). Safe: the spec gives such a run no outcome. -/
  | hostBufferWriteWhileBusy
  /-- Raised by `STEP_XOR_BYTE` when `IDX` lies past the real end of `BUF`: the engine agent has no step (R50, R177). Safe:
  nothing can be proved of a run that takes the step. -/
  | bufferReadNotAdmitted
  /-- Raised by an engine step whose selector has `WSEL = 11` and `PHASE = 10` (R79, R177). Exact: it cannot be reached from
  reset. -/
  | unreachableSelector
  deriving DecidableEq, Repr

/-- What the model does not accept (R79, R177). -/
inductive Refusal where
  /-- An instruction without a meaning, by its mnemonic; raised only by an arm of `exec`. Safe. -/
  | notModelled (mnemonic : String)
  /-- Raised by a bus access with `OFF[1:0] != 00`: such an access does not exist (R55, R79). Safe. -/
  | misalignedAccess
  /-- Raised by a bus access that does not move 32 bits: such an access does not exist (R55, R79). Safe. -/
  | accessNot32Bits
  /-- Raised by a bus access outside every register window: it is no access to the block (R39, R58). Safe. -/
  | outsideEveryWindow
  /-- Raised by an event, or a transaction of a host program, for an instance the platform does not have (R174). Safe. -/
  | noSuchInstance
  /-- Raised when `BUF` would hold more than `2^31 - 1` bytes (R122, R177). Safe. -/
  | inputTooLong
  deriving DecidableEq, Repr

/-- An instance as reset leaves it (R40), at the platform address `base`, with `BUF` as given: reset does not touch either.
`BUF` may be written again: reset ends the command (R190), and R192 has the host fill `BUF` first (log entry 12). -/
def Engine.atReset (base : Nat) (buf : Memory) : Engine :=
  { base := base, cmd := 0, init := 0, poly := 0, start := 0, end_ := 0, len := 0, status := 0, result := 0,
    phase := .idle, wsel := .w8, crc := 0, idx := 0, bit := 0, buf := buf, bufHeld := false }

/-- The platform right after reset (R40): one instance, at address 0, with nothing in `BUF` and the default parameters
(R8), and no step scheduled. One instance, address 0 and the empty message stand for OPEN parameters (log entries 2, 3 and
4). -/
def State.reset : State :=
  { cfg := Config.defaults "", left := [], eng := Engine.atReset 0 [], right := [], sched := [], lastRead := none }

/-- The state with the selected instance replaced. -/
def State.setEng (s : State) (e : Engine) : State := { s with eng := e }

/-- The state with the value of a host read's response (R70). -/
def State.respond (s : State) (v : Word) : State := { s with lastRead := some v }

/-- The state with another list of steps to come. -/
def State.setSched (s : State) (l : List Event) : State := { s with sched := l }

/-- The instances of the platform, in order (R174). -/
def State.engines (s : State) : List Engine := s.left ++ s.eng :: s.right

end Sys2Proof.Machine
end

