-- ==== Sys2Proof/Machine/Flags.lean ====
section
/-! DEFINITION. The `STATUS` register: its fields, its codes and the values the block writes to it (R27, R37, R76, R160). -/

namespace Sys2Proof.Machine

/-- The error kinds (R160). -/
inductive ErrKind where
  | invalidRange
  | unsupportedWidth
  deriving DecidableEq, Repr

/-- The error causes (R160). -/
inductive Reason where
  | endBeforeStart
  | spanTooShort
  | outOfBounds
  | badWidth
  deriving DecidableEq, Repr

/-- The kind of each cause (R160). -/
def Reason.kind : Reason → ErrKind
  | .endBeforeStart => .invalidRange
  | .spanTooShort => .invalidRange
  | .outOfBounds => .invalidRange
  | .badWidth => .unsupportedWidth

/-- `ERR` codes (R27, R160). -/
def ErrKind.code : ErrKind → BitVec 2
  | .invalidRange => 1
  | .unsupportedWidth => 2

/-- `REASON` codes (R27, R160). -/
def Reason.code : Reason → BitVec 3
  | .endBeforeStart => 1
  | .spanTooShort => 2
  | .outOfBounds => 3
  | .badWidth => 4

/-- `STATUS.BUSY`, bit 0 (R27). -/
def statusBusy (v : Word) : Bool := v.getLsbD 0

/-- `STATUS.DONE`, bit 1 (R27). -/
def statusDone (v : Word) : Bool := v.getLsbD 1

/-- `STATUS.ERR`, bits 3 to 2 (R27). -/
def statusErr (v : Word) : BitVec 2 := v.extractLsb' 2 2

/-- `STATUS.REASON`, bits 6 to 4 (R27). -/
def statusReason (v : Word) : BitVec 3 := v.extractLsb' 4 3

/-- `x[STATUS] = DONE << 1 | BUSY | ERR << 2 | REASON << 4` (R76). -/
def statusWord (busy done : Bool) (err : BitVec 2) (reason : BitVec 3) : Word :=
  (BitVec.ofBool done).setWidth 32 <<< 1 ||| (BitVec.ofBool busy).setWidth 32 ||| err.setWidth 32 <<< 2 |||
    reason.setWidth 32 <<< 4

/-- Nothing has finished since the last accepted write of `CMD` or since reset (R27). -/
def statusClear : Word := statusWord false false 0 0

/-- A command is in progress (R76). -/
def statusInProgress : Word := statusWord true false 0 0

/-- The last command succeeded (R76, R139). -/
def statusSuccess : Word := statusWord false true 0 0

/-- The error report's `STATUS` (R163). -/
def statusError (r : Reason) : Word := statusWord false true r.kind.code r.code

/-- The cause that a `STATUS` value reports, which the host turns into a message (R123, R162). -/
def reasonOfStatus (v : Word) : Option Reason :=
  match (statusReason v).toNat with
  | 1 => some .endBeforeStart
  | 2 => some .spanTooShort
  | 3 => some .outOfBounds
  | 4 => some .badWidth
  | _ => none

end Sys2Proof.Machine
end

