-- ==== Sys2Proof/Machine/Operands.lean ====
section
/-! DEFINITION. The operands of a command and of an engine step (R77): the width and its mask (R73), the indices, the
length, the initial value and the byte; and the codes of the step selector (R73, R75). -/

namespace Sys2Proof.Machine

/-- `PHASE` as it stands in the selector (R75). -/
def Phase.code : Phase → BitVec 2
  | .idle => 0b00
  | .xorByte => 0b01
  | .reduce => 0b10
  | .finish => 0b11

/-- `WSEL` as it stands in the selector (R73, R79). -/
def WSel.code : WSel → BitVec 2
  | .w8 => 0b00
  | .w16 => 0b01
  | .w32 => 0b10
  | .reserved => 0b11

/-- The phase of a code (R75). -/
def phaseOfCode (c : BitVec 2) : Phase :=
  match c.toNat with
  | 0 => .idle
  | 1 => .xorByte
  | 2 => .reduce
  | _ => .finish

/-- The selector of a code (R73, R79). -/
def wselOfCode (c : BitVec 2) : WSel :=
  match c.toNat with
  | 0 => .w8
  | 1 => .w16
  | 2 => .w32
  | _ => .reserved

/-- The selector of a requested width; no other width has one (R73). -/
def wselOfWidth (width : Int) : Option WSel :=
  if width = 8 then some .w8
  else if width = 16 then some .w16
  else if width = 32 then some .w32
  else none

/-- `w(WSEL)` (R32). The code 11 belongs to no width (R73) and has none here. -/
def WSel.width : WSel → Option Nat
  | .w8 => some 8
  | .w16 => some 16
  | .w32 => some 32
  | .reserved => none

/-- `M_w = (1 << w) - 1` (R10). -/
def maskOfWidth (w : Nat) : Word := BitVec.ofNat 32 (2 ^ w - 1)

/-- `M_w(WSEL)` (R73). At the code 11 the spec states no mask: a free value (log entry 5). -/
def WSel.mask (x : WSel) : Word :=
  match x.width with
  | some w => maskOfWidth w
  | none => Config.maskReserved

/-- Operand `width`, zero-extended (R77). -/
def opWidth (v : Word) : Int := (v.toNat : Int)

/-- Operand `start`, sign-extended (R24, R77). -/
def opStart (e : Engine) : Int := e.start.toInt

/-- Operand `end`, sign-extended (R25, R77). -/
def opEnd (e : Engine) : Int := e.end_.toInt

/-- Operand `len`, zero-extended (R26, R77). -/
def opLen (e : Engine) : Nat := e.len.toNat

/-- Operand byte, zero-extended to 32 bits (R77). -/
def opByte (b : Byte) : Word := b.setWidth 32

/-- `load_w(INIT) = zext(INIT) & M_w` (R140). -/
def loadInit (x : WSel) (init : Word) : Word := init &&& x.mask

/-- `IDX = sext_32(x[END])`, as mathematical integers (R10, R136). -/
def atEnd (e : Engine) : Bool := decide ((e.idx.toNat : Int) = opEnd e)

end Sys2Proof.Machine
end

