-- ==== Sys2Proof/Machine/Reducer.lean ====
section
/-! DEFINITION. The combinational sub-blocks (R130 to R134) and the functional core that the engine steps compute (R140 to
R142). A `w`-bit value is a `BitVec w`, so a result is masked to `w` bits by its type. -/

namespace Sys2Proof.Machine

/-- `poly_xor_network_w(c, p)`: a logical shift, and the polynomial XORed in when the low bit was 1 (R130). -/
def polyXorNetwork {w : Nat} (c p : BitVec w) : BitVec w :=
  if c.getLsbD 0 then (c >>> 1) ^^^ p else c >>> 1

/-- `crc_8_reducer` (R132). -/
def crc8Reducer (c p : Word) : Word := (polyXorNetwork (c.setWidth 8) (p.setWidth 8)).setWidth 32

/-- `crc_16_reducer` (R133). -/
def crc16Reducer (c p : Word) : Word := (polyXorNetwork (c.setWidth 16) (p.setWidth 16)).setWidth 32

/-- `crc_32_reducer` (R134). -/
def crc32Reducer (c p : Word) : Word := polyXorNetwork c p

/-- The network applied `n` times. -/
def reduceTimes {w : Nat} : Nat → BitVec w → BitVec w → BitVec w
  | 0, _, c => c
  | n + 1, p, c => reduceTimes n p (polyXorNetwork c p)

/-- `processByte_w(c, b, p)`: the network 8 times on `c XOR b` (R141). -/
def processByte {w : Nat} (p c : BitVec w) (b : Byte) : BitVec w := reduceTimes 8 p (c ^^^ b.setWidth w)

/-- `crcCore_w(init, poly, B)` (R142); `init` and `poly` are already masked to `w` bits. -/
def crcCore {w : Nat} (init poly : BitVec w) (bs : List Byte) : BitVec w := bs.foldl (processByte poly) init

/-- `crcValue_w(init, poly, B)` with the parameter `XOROUT` (R142). The operands are 32-bit words or wider numbers, masked
to `w` bits (R140, D4). -/
def crcValue (w : Nat) (xorOut : Word) (init poly : Nat) (bs : List Byte) : BitVec w :=
  crcCore (BitVec.ofNat w init) (BitVec.ofNat w poly) bs ^^^ xorOut.setWidth w

end Sys2Proof.Machine
end

