-- ==== Sys2Proof/Machine/Ops.lean ====
section
/-! DEFINITION. The named operations that the meanings share: the input buffer, host reads and writes of the registers,
validation and the error report (R161, R163), the start of a command (R100), the sequencer's advance (R136), reset (R190)
and the choice of an instance (R174). -/

namespace Sys2Proof.Machine

/-- The three outcomes of a step of this machine. -/
abbrev Out := Host.Outcome State Fault Refusal

/-! ## The input buffer -/

/-- `MemRead(a, 1)`: the byte at index `a`, or nothing when `a` lies past the real end of `BUF` (R50). -/
def Memory.read : Memory → Nat → Option Byte
  | [], _ => none
  | (k, b) :: m, a => if k = a then some b else Memory.read m a

/-- One byte of `BUF` written by its owner, the host (R39, R196). The indices stay strictly rising. -/
def Memory.write : Memory → Nat → Byte → Memory
  | [], a, v => [(a, v)]
  | (k, b) :: m, a, v =>
    if a < k then (a, v) :: (k, b) :: m
    else if a = k then (k, v) :: m
    else (k, b) :: Memory.write m a v

/-- The bytes of an input at the indices from `k` on. -/
def Memory.ofListFrom : Nat → List Byte → Memory
  | _, [] => []
  | k, b :: bs => (k, b) :: Memory.ofListFrom (k + 1) bs

/-- `BUF` holding exactly the given bytes, from index 0 (R50, R81). -/
def Memory.ofList (bs : List Byte) : Memory := Memory.ofListFrom 0 bs

/-- Every listed index is at least `k`, and the indices rise strictly. -/
def Memory.wfFrom : Nat → Memory → Bool
  | _, [] => true
  | k, (a, _) :: m => decide (k ≤ a) && Memory.wfFrom (a + 1) m

/-- The canonical form: indices strictly rising. An unlisted index holds no byte, so no entry repeats it. -/
def Memory.wf (m : Memory) : Bool := Memory.wfFrom 0 m

/-- The most bytes an input may have, `2^31 - 1` (R122, R197). -/
def maxInputLen : Nat := 0x7FFFFFFF

/-! ## Host registers -/

/-- What a host read of a register returns (R111 to R118). -/
def Engine.readReg (e : Engine) (r : Reg) : Word :=
  match r with
  | .cmd => e.cmd
  | .init => e.init
  | .poly => e.poly
  | .start => e.start
  | .end_ => e.end_
  | .len => e.len
  | .status => e.status
  | .result => e.result

/-- What a host write of an operand register stores while idle (R104 to R108). A write of `STATUS` or `RESULT` has no
effect (R109, R110). `CMD` is stored by the command it starts (`acceptCommand`), not here. -/
def Engine.storeOperand (e : Engine) (r : Reg) (v : Word) : Engine :=
  match r with
  | .cmd => e
  | .init => { e with init := v }
  | .poly => { e with poly := v }
  | .start => { e with start := v }
  | .end_ => { e with end_ := v }
  | .len => { e with len := v }
  | .status => e
  | .result => e

/-- `PHASE != IDLE`, which is `STATUS.BUSY = 1` (R38, R119). -/
def Engine.busy (e : Engine) : Bool := decide (e.phase ≠ .idle)

/-- A host write of an operand register or of a read-only one: ignored while busy (R119). -/
def hostWrite (r : Reg) (v : Word) (s : State) : Out :=
  if s.eng.busy then .next s else .next (s.setEng (s.eng.storeOperand r v))

/-- No agent may write `BUF`: the instance is busy (R177), or the window of R196 is open. -/
def Engine.bufClosed (e : Engine) : Bool := e.busy || e.bufHeld

/-- What a host read leaves of the instance. No read has a side effect in the block (R57); a read of `STATUS` that returns
`BUSY = 0` closes the window in which `BUF` may not be written (R196). -/
def Engine.afterRead (e : Engine) (r : Reg) : Engine :=
  match r with
  | .cmd => e
  | .init => e
  | .poly => e
  | .start => e
  | .end_ => e
  | .len => e
  | .status => { e with bufHeld := e.bufHeld && statusBusy e.status }
  | .result => e

/-- A host read: the response carries the register, and nothing of the block changes (R57, R70). -/
def hostRead (r : Reg) (s : State) : Out := .next ((s.setEng (s.eng.afterRead r)).respond (s.eng.readReg r))

/-! ## Commands -/

/-- `validate(width, s, e, len)`: the first failure in the order of R161, or nothing. -/
def validate (minRange : MinRange) (width s e : Int) (len : Nat) : Option Reason :=
  if e < s then some .endBeforeStart
  else if e - s + 1 < (minRange.toNat : Int) then some .spanTooShort
  else if wselOfWidth width = none then some .badWidth
  else if s < 0 ∨ s ≥ (len : Int) ∨ e < 0 ∨ e ≥ (len : Int) then some .outOfBounds
  else none

/-- The error report `raise kind(reason)`: it writes `STATUS` and nothing else (R163). It is this block's one way of
reporting an exception: nothing is saved and no control is transferred (R168). -/
def Engine.raise (e : Engine) (r : Reason) : Engine := { e with status := statusError r }

/-- The first writes of an accepted write of `CMD`: `CMD` stored, `RESULT` and `STATUS` cleared (R100). It is also what
clears the state an error left: the block has no other return from an error (R169). From here on no agent may write `BUF`
(R196). -/
def Engine.clearForCommand (e : Engine) (v : Word) : Engine :=
  { e with cmd := v, result := 0, status := statusClear, bufHeld := true }

/-- The start of a validated command (R100, R140). -/
def Engine.startCommand (e : Engine) (x : WSel) : Engine :=
  { e with wsel := x, crc := loadInit x e.init, idx := e.start, bit := 0, phase := .xorByte,
           status := statusInProgress }

/-- The accepting step of a write of `CMD` while idle (R100). `validate` has refused every width without a selector, so the
last arm is not reached. -/
def acceptCommand (cfg : Config) (v : Word) (e : Engine) : Engine :=
  match validate cfg.minRange (opWidth v) (opStart e) (opEnd e) (opLen e) with
  | some r => (e.clearForCommand v).raise r
  | none =>
    match wselOfWidth (opWidth v) with
    | some x => (e.clearForCommand v).startCommand x
    | none => (e.clearForCommand v).raise .badWidth

/-- `WR_CMD(v)`: ignored while busy (R100, R119). -/
def command (v : Word) (s : State) : Out :=
  if s.eng.busy then .next s else .next (s.setEng (acceptCommand s.cfg v s.eng))

/-! ## Engine steps -/

/-- The sequencer after one reduction (R34, R36, R136): the next bit, or the next byte, or `FINISH`. -/
def Engine.advance (e : Engine) : Engine :=
  if e.bit.toNat < 7 then { e with bit := e.bit + 1 }
  else if atEnd e then { e with bit := 0, phase := .finish }
  else { e with bit := 0, idx := e.idx + 1, phase := .xorByte }

/-- One pass of the reduction loop with the given reducer (R136 to R138). -/
def reduceWith (f : Word → Word → Word) (s : State) : Out :=
  .next (s.setEng { s.eng with crc := f s.eng.crc s.eng.poly }.advance)

/-- `(CRC XOR (XOROUT & M)) & M` (R139). -/
def finishValue (cfg : Config) (x : WSel) (crc : Word) : Word := (crc ^^^ (cfg.xorOut &&& x.mask)) &&& x.mask

/-- `FSM[3:2] = WSEL` and `FSM[1:0] = PHASE` (R74). -/
def Engine.selector (e : Engine) : BitVec 4 := fsmWord e.wsel.code e.phase.code

/-! ## Reset and instances -/

/-- The reset of an instance: every register and every piece of hidden state at its reset value, `BUF` left alone (R40,
R190). -/
def Engine.doReset (e : Engine) : Engine := Engine.atReset e.base e.buf

/-- The list split around its element number `k`. -/
def splitAround : Nat → List Engine → Option (List Engine × Engine × List Engine)
  | _, [] => none
  | 0, e :: l => some ([], e, l)
  | k + 1, e :: l =>
    match splitAround k l with
    | some (a, x, b) => some (e :: a, x, b)
    | none => none

/-- The state with instance `k` selected (R174). No instance changes. -/
def State.select (s : State) (k : Nat) : Option State :=
  match splitAround k s.engines with
  | some (a, x, b) => some { s with left := a, eng := x, right := b }
  | none => none

/-- The address lies in the instance's 32-byte register window (R39, R58). -/
def Engine.inWindow (e : Engine) (addr : Nat) : Bool := decide (e.base ≤ addr ∧ addr < e.base + 32)

/-- The number of the instance whose window holds the address. -/
def windowIndex : List Engine → Nat → Option Nat
  | [], _ => none
  | e :: l, addr =>
    if e.inWindow addr then some 0
    else
      match windowIndex l addr with
      | some k => some (k + 1)
      | none => none

end Sys2Proof.Machine
end

