-- ==== Sys2Proof/Machine/Commands.lean ====
section
/-! DEFINITION. The meanings of the commands: the generic write of `CMD` and the three entry points (R100 to R103). -/

namespace Sys2Proof.Machine

/-- `WR_CMD`, the generic command COMPUTE (R100). -/
def execWrCmd (v : Word) (s : State) : Out := command v s

/-- `CRC8`: the command with width 8 (R101). -/
def execCrc8 (s : State) : Out := command 8 s

/-- `CRC16`: the command with width 16 (R102). -/
def execCrc16 (s : State) : Out := command 16 s

/-- `CRC32`: the command with width 32 (R103). -/
def execCrc32 (s : State) : Out := command 32 s

end Sys2Proof.Machine
end

