-- ==== Sys2Proof/Machine/EngineSteps.lean ====
section
/-! DEFINITION. The meanings of the engine steps (R135 to R139). -/

namespace Sys2Proof.Machine

/-- `STEP_XOR_BYTE` (R135). A read past the real end of `BUF` is not admitted and the engine has no step (R50, R177). -/
def execStepXorByte (s : State) : Out :=
  match s.eng.buf.read s.eng.idx.toNat with
  | some b => .next (s.setEng { s.eng with crc := s.eng.crc ^^^ opByte b, bit := 0, phase := .reduce })
  | none => .fault .bufferReadNotAdmitted

/-- `STEP_REDUCE8` (R136). -/
def execStepReduce8 (s : State) : Out := reduceWith crc8Reducer s

/-- `STEP_REDUCE16` (R137). -/
def execStepReduce16 (s : State) : Out := reduceWith crc16Reducer s

/-- `STEP_REDUCE32` (R138). -/
def execStepReduce32 (s : State) : Out := reduceWith crc32Reducer s

/-- `STEP_FINISH` (R139). -/
def execStepFinish (s : State) : Out :=
  .next (s.setEng { s.eng with result := finishValue s.cfg s.eng.wsel s.eng.crc, status := statusSuccess,
                               phase := .idle })

end Sys2Proof.Machine
end

