-- ==== Sys2Proof/Machine/RegReads.lean ====
section
/-! DEFINITION. The meanings of the register reads (R111 to R118). -/

namespace Sys2Proof.Machine

/-- `RD_CMD` (R111). -/
def execRdCmd (s : State) : Out := hostRead .cmd s

/-- `RD_INIT` (R112). -/
def execRdInit (s : State) : Out := hostRead .init s

/-- `RD_POLY` (R113). -/
def execRdPoly (s : State) : Out := hostRead .poly s

/-- `RD_START` (R114). -/
def execRdStart (s : State) : Out := hostRead .start s

/-- `RD_END` (R115). -/
def execRdEnd (s : State) : Out := hostRead .end_ s

/-- `RD_LEN` (R116). -/
def execRdLen (s : State) : Out := hostRead .len s

/-- `RD_STATUS` (R117). A read that returns `BUSY = 0` closes the window in which `BUF` may not be written (R196). -/
def execRdStatus (s : State) : Out := hostRead .status s

/-- `RD_RESULT` (R118). -/
def execRdResult (s : State) : Out := hostRead .result s

end Sys2Proof.Machine
end

