-- ==== Sys2Proof/Machine/RegWrites.lean ====
section
/-! DEFINITION. The meanings of the register writes (R104 to R110). -/

namespace Sys2Proof.Machine

/-- `WR_INIT` (R104). -/
def execWrInit (v : Word) (s : State) : Out := hostWrite .init v s

/-- `WR_POLY` (R105). -/
def execWrPoly (v : Word) (s : State) : Out := hostWrite .poly v s

/-- `WR_START` (R106). -/
def execWrStart (v : Word) (s : State) : Out := hostWrite .start v s

/-- `WR_END` (R107). -/
def execWrEnd (v : Word) (s : State) : Out := hostWrite .end_ v s

/-- `WR_LEN` (R108). -/
def execWrLen (v : Word) (s : State) : Out := hostWrite .len v s

/-- `WR_STATUS`: no effect, busy or idle (R109). -/
def execWrStatus (v : Word) (s : State) : Out := hostWrite .status v s

/-- `WR_RESULT`: no effect (R110). -/
def execWrResult (v : Word) (s : State) : Out := hostWrite .result v s

end Sys2Proof.Machine
end

