-- ==== Sys2Proof/Machine/Dispatch.lean ====
section
/-! DEFINITION. One arm for each constructor of `Instr`, each one call of its meaning. -/

namespace Sys2Proof.Machine

def exec (i : Instr) (s : State) : Host.Outcome State Fault Refusal :=
  match i with
  | .wrCmd v => Sys2Proof.Machine.execWrCmd v s
  | .crc8 => Sys2Proof.Machine.execCrc8 s
  | .crc16 => Sys2Proof.Machine.execCrc16 s
  | .crc32 => Sys2Proof.Machine.execCrc32 s
  | .wrInit v => Sys2Proof.Machine.execWrInit v s
  | .wrPoly v => Sys2Proof.Machine.execWrPoly v s
  | .wrStart v => Sys2Proof.Machine.execWrStart v s
  | .wrEnd v => Sys2Proof.Machine.execWrEnd v s
  | .wrLen v => Sys2Proof.Machine.execWrLen v s
  | .wrStatus v => Sys2Proof.Machine.execWrStatus v s
  | .wrResult v => Sys2Proof.Machine.execWrResult v s
  | .rdCmd => Sys2Proof.Machine.execRdCmd s
  | .rdInit => Sys2Proof.Machine.execRdInit s
  | .rdPoly => Sys2Proof.Machine.execRdPoly s
  | .rdStart => Sys2Proof.Machine.execRdStart s
  | .rdEnd => Sys2Proof.Machine.execRdEnd s
  | .rdLen => Sys2Proof.Machine.execRdLen s
  | .rdStatus => Sys2Proof.Machine.execRdStatus s
  | .rdResult => Sys2Proof.Machine.execRdResult s
  | .stepXorByte => Sys2Proof.Machine.execStepXorByte s
  | .stepReduce8 => Sys2Proof.Machine.execStepReduce8 s
  | .stepReduce16 => Sys2Proof.Machine.execStepReduce16 s
  | .stepReduce32 => Sys2Proof.Machine.execStepReduce32 s
  | .stepFinish => Sys2Proof.Machine.execStepFinish s

end Sys2Proof.Machine
end

