-- ==== Sys2Proof/Machine/Fetch.lean ====
section
/-! DEFINITION. What an agent's turn comes to: the instruction it runs and the state it runs in, or an event that runs
none. The host's transaction is decoded from its `HBUS` word (R70), the engine's step from its selector (R74). -/

namespace Sys2Proof.Machine

/-- What an event comes to. -/
inductive Fetched where
  /-- Instruction `i` runs in state `s`. -/
  | run (i : Instr) (s : State)
  /-- The event runs no instruction; `s` is the state after it. -/
  | quiet (s : State)
  | fault (f : Fault)
  | refused (r : Refusal)
  deriving DecidableEq, Repr

/-- The engine agent of the selected instance takes its turn (R35, R74, R79). The last arm is not reached: no selector
decodes to a misaligned access. -/
def fetchEngine (s : State) : Fetched :=
  match decodeFsm s.eng.selector with
  | .instr i => .run i s
  | .noStep => .quiet s
  | .unreachableSelector => .fault .unreachableSelector
  | .misaligned => .refused .misalignedAccess

/-- The `HBUS` word of a bus access to the register window at `base` (R70). -/
def busWord (base : Nat) (a : Access) : BitVec 38 := hbusWord a.write (BitVec.ofNat 5 (a.addr - base)) a.data

/-- A bus access that has reached the window of the selected instance (R70, R79). The last two arms are not reached: an
`HBUS` word is no selector. -/
def fetchTransaction (a : Access) (s : State) : Fetched :=
  match decodeHbus (busWord s.eng.base a) with
  | .instr i => .run i s
  | .misaligned => .refused .misalignedAccess
  | .noStep => .quiet s
  | .unreachableSelector => .fault .unreachableSelector

/-- A bus access of the host: 32 bits, in some instance's window (R55, R58). -/
def fetchBus (a : Access) (s : State) : Fetched :=
  if a.bits = 32 then
    match windowIndex s.engines a.addr with
    | some k =>
      match s.select k with
      | some t => fetchTransaction a t
      | none => .refused .noSuchInstance
    | none => .refused .outsideEveryWindow
  else .refused .accessNot32Bits

/-- `BUF` of the selected instance replaced, if `BUF` may be written (R177, R196) and the new contents are not too long
(R122). `top` is the number of bytes the buffer would have at least. DESIGN CHOICE: a change that is too long and comes while
`BUF` may not be written meets both the fault and the refusal of R177, which gives no order; it is the fault (log entry 13).
-/
def fetchBufChange (top : Nat) (m : Memory) (s : State) : Fetched :=
  if s.eng.bufClosed then .fault .hostBufferWriteWhileBusy
  else if top ≤ maxInputLen then .quiet (s.setEng { s.eng with buf := m })
  else .refused .inputTooLong

/-- One event, in the state whose list of steps to come no longer holds it. -/
def fetchEvent (ev : Event) (s : State) : Fetched :=
  match ev with
  | .bus a => fetchBus a s
  | .engine k =>
    match s.select k with
    | some t => fetchEngine t
    | none => .refused .noSuchInstance
  | .reset k =>
    match s.select k with
    | some t => .quiet (t.setEng t.eng.doReset)
    | none => .refused .noSuchInstance
  | .bufWrite k a b =>
    match s.select k with
    | some t => fetchBufChange (a + 1) (t.eng.buf.write a b) t
    | none => .refused .noSuchInstance
  | .bufFill k bytes =>
    match s.select k with
    | some t => fetchBufChange bytes.length (Memory.ofList bytes) t
    | none => .refused .noSuchInstance

/-- The next step of the platform: the first event of the list, or, when the list is empty, the turn of the selected
instance's engine agent (log entry 7). -/
def fetch (s : State) : Fetched :=
  match s.sched with
  | [] => fetchEngine s
  | ev :: rest => fetchEvent ev (s.setSched rest)

/-- The buffer with a byte at index `a`, if it has none: what a placed `STEP_XOR_BYTE` needs to be the engine's next step
(log entry 8). -/
def admitByte (m : Memory) (a : Nat) : Memory :=
  match m.read a with
  | some _ => m
  | none => m.write a 0

/-- The selected instance with the given step selector (R74), and with a byte to read where the step reads one. -/
def Engine.withSelector (e : Engine) (f : BitVec 4) : Engine :=
  { e with phase := phaseOfCode (f.extractLsb' 0 2), wsel := wselOfCode (f.extractLsb' 2 2),
           buf := if phaseOfCode (f.extractLsb' 0 2) = .xorByte then admitByte e.buf e.idx.toNat else e.buf }

/-- The access that carries an `HBUS` word to the selected instance's window (R58, R70). -/
def accessOfWord (base : Nat) (w : BitVec 38) : Access :=
  { write := hbusRw w, addr := base + (hbusOff w).toNat, bits := 32, data := hbusData w }

/-- The state in which the next step runs the encoded instruction on the selected instance. -/
def placeEncoded (s : State) (x : Encoded) : State :=
  match x with
  | .hbus w => s.setSched (.bus (accessOfWord s.eng.base w) :: s.sched)
  | .fsm f => (s.setEng (s.eng.withSelector f)).setSched (.engine s.left.length :: s.sched)

end Sys2Proof.Machine
end

