-- ==== Sys2Proof/Machine/Step.lean ====
section
/-! DEFINITION. One step of the platform: one agent's turn (R12), and the instruction it runs. -/

namespace Sys2Proof.Machine

/-- One atomic step of one agent (R12, R56). -/
def step (s : State) : Host.Outcome State Fault Refusal :=
  match fetch s with
  | .run i t => exec i t
  | .quiet t => .next t
  | .fault f => .fault f
  | .refused r => .refused r

/-- The state with the encoded instruction as the very next step of the selected instance (log entry 8). A number that is
no word of either format is not placed. -/
def State.withFetchWord (s : State) (nbits w : Nat) : State :=
  match encodedOfTable nbits w with
  | some x => placeEncoded s x
  | none => s

end Sys2Proof.Machine
end

