-- ==== Sys2Proof/Machine/HostSide.lean ====
section
/-! DEFINITION. The host's side of the contract: the rendering of a result (R144), the messages (R162), the function
`computeCRC` (R145), how the host maps its options onto the registers (R121, R122) and what it returns (R123, R125). None
of it is state or a step of the block. -/

namespace Sys2Proof.Machine

/-- `HEX = "0123456789abcdef"` (R144, D17). -/
def hexTable : List Char :=
  ['0', '1', '2', '3', '4', '5', '6', '7', '8', '9', 'a', 'b', 'c', 'd', 'e', 'f']

/-- The digit of four bits (R144). -/
def hexDigit (d : BitVec 4) : Char := hexTable.getD d.toNat '0'

/-- The `w/4` characters of a `w`-bit value: character `k` is the digit of the bits `w-1-4k` to `w-4-4k` (R144). -/
def hexDigits (w : Nat) (v : BitVec w) : List Char :=
  (List.range (w / 4)).map fun k => hexDigit (v.extractLsb' (w - 4 - 4 * k) 4)

/-- `formatHex_w(v)` (R144). -/
def formatHex (w : Nat) (v : BitVec w) : String := String.ofList (hexDigits w v)

/-- The message of each error cause (R162). -/
def message (cfg : Config) : Reason → String
  | .endBeforeStart => "end index must not precede start index"
  | .spanTooShort => "length of data to compute CRC over must be greater than 0"
  | .badWidth => "CRC size must be 8, 16, or 32 bits"
  | .outOfBounds => cfg.msgOutOfBounds

/-- An error as the host hands it on: kind, cause and message (R123, R145). -/
structure ErrorReport where
  kind : ErrKind
  reason : Reason
  text : String
  deriving DecidableEq, Repr

/-- The report of an error cause (R145, R162). -/
def errorReport (cfg : Config) (r : Reason) : ErrorReport := { kind := r.kind, reason := r, text := message cfg r }

/-- `[input[start], ..., input[end]]` (R142, R145). -/
def covered (input : List Byte) (s e : Int) : List Byte := (input.drop s.toNat).take (e - s + 1).toNat

/-- `computeCRC` as one total function over mathematical integers (R145). -/
def computeCRC (cfg : Config) (input : List Byte) (width : Int) (init poly : Nat) (s e : Int) :
    Except ErrorReport String :=
  match validate cfg.minRange width s e input.length with
  | some r => .error (errorReport cfg r)
  | none => .ok (formatHex width.toNat (crcValue width.toNat cfg.xorOut init poly (covered input s e)))

/-- What the host returns when it has read `STATUS` and `RESULT` after a command of width `w` (R123, R194); nothing while
the command is in progress or before any command. -/
def hostReturn (cfg : Config) (w : Nat) (status result : Word) : Option (Except ErrorReport String) :=
  if status = statusSuccess then some (.ok (formatHex w (result.setWidth w)))
  else
    match reasonOfStatus status with
    | some r => some (.error (errorReport cfg r))
    | none => none

/-- The index has a register encoding (R122). -/
def fitsIndex (i : Int) : Bool := decide (-2147483648 ≤ i ∧ i ≤ 2147483647)

/-- The width has a register encoding (R122). -/
def fitsWidth (w : Int) : Bool := decide (0 ≤ w ∧ w ≤ 4294967295)

/-- What a host does with a call (R121, R122). -/
inductive HostPlan where
  /-- Fill `BUF` with the input and make these operand writes, in any order, and write `CMD` with `cmd` last (R121). -/
  | transactions (input : List Byte) (operands : List (Reg × Word)) (cmd : Word)
  /-- `CMD` is not written; the host reports the error itself (R122). -/
  | report (r : ErrorReport)
  /-- The call is outside the spec (R122, R177). -/
  | refused (r : Refusal)
  deriving DecidableEq, Repr

/-- The host's mapping of a call onto the registers (R121, R122). An operand without a register encoding always fails
validation (R122), so the last arm is not reached. -/
def hostPlan (cfg : Config) (input : List Byte) (width : Int) (init poly : Nat) (s e : Int) : HostPlan :=
  if maxInputLen < input.length then .refused .inputTooLong
  else if fitsWidth width && fitsIndex s && fitsIndex e then
    .transactions input
      [(.len, BitVec.ofNat 32 input.length), (.init, BitVec.ofNat 32 init), (.poly, BitVec.ofNat 32 poly),
        (.start, BitVec.ofInt 32 s), (.end_, BitVec.ofInt 32 e)]
      (BitVec.ofInt 32 width)
  else
    match validate cfg.minRange width s e input.length with
    | some r => .report (errorReport cfg r)
    | none => .refused .inputTooLong

/-- The values of the option `"Bits"`: one of the strings "8", "16" and "32" (R72, R121). -/
inductive BitsOption where
  | bits8
  | bits16
  | bits32
  deriving DecidableEq, Repr

/-- The string of the option (R121). -/
def BitsOption.text : BitsOption → String
  | .bits8 => "8"
  | .bits16 => "16"
  | .bits32 => "32"

/-- The option of a string; a string that is none of the three is no value of the option (R121). -/
def bitsOption (t : String) : Option BitsOption :=
  if t = "8" then some .bits8 else if t = "16" then some .bits16 else if t = "32" then some .bits32 else none

/-- The number that decimal digits write, after the number `n` of the digits before them. -/
def decimalFrom : Nat → List Char → Nat
  | n, [] => n
  | n, c :: cs => decimalFrom (10 * n + (c.toNat - '0'.toNat)) cs

/-- `d`, the decimal value of the string, which the host writes to `CMD` (R121). -/
def BitsOption.value (b : BitsOption) : Nat := decimalFrom 0 b.text.toList

/-- The option set of a call (R121). -/
structure CallOptions where
  /-- `"Initial Value"`, an unsigned integer. -/
  initialValue : Nat
  /-- `"Polynomial"`, an unsigned integer. -/
  polynomial : Nat
  /-- `"Bits"`. -/
  bits : BitsOption
  /-- `"Start Index"`, an integer. -/
  startIndex : Int
  /-- `"End Index"`, an integer. -/
  endIndex : Int
  deriving DecidableEq, Repr

/-- The host's mapping of an input and an option set onto the registers (R121, R122). -/
def optionsPlan (cfg : Config) (input : List Byte) (o : CallOptions) : HostPlan :=
  hostPlan cfg input o.bits.value o.initialValue o.polynomial o.startIndex o.endIndex

/-- The host's write of a register in the window at `base` (R70, R81). -/
def writeAccess (base : Nat) (r : Reg) (v : Word) : Access :=
  { write := true, addr := base + r.off.toNat, bits := 32, data := v }

/-- The host's read of a register in the window at `base`; the request carries 0 (R70). -/
def readAccess (base : Nat) (r : Reg) : Access :=
  { write := false, addr := base + r.off.toNat, bits := 32, data := 0 }

/-- The host's writes of registers in the window at `base`, one step each. -/
def writeEvents (base : Nat) (writes : List (Reg × Word)) : List Event :=
  writes.map fun p => .bus (writeAccess base p.1 p.2)

/-- The steps of a planned call on instance `k`, whose window is at `base`: the operand writes `before`, `BUF` filled, the
operand writes `after`, and `CMD` (R121, R192). -/
def callEvents (k base : Nat) (input : List Byte) (before after : List (Reg × Word)) (cmd : Word) : List Event :=
  writeEvents base before ++ [.bufFill k input] ++ writeEvents base (after ++ [(.cmd, cmd)])

/-- `highlight(p) = p` (R125). -/
def highlight (p : Nat) : Nat := p

/-- `highlightReverse(p) = p` (R125). -/
def highlightReverse (p : Nat) : Nat := p

end Sys2Proof.Machine
end

