-- ==== Sys2Proof/Machine/HostProgram.lean ====
section
/-! DEFINITION. Host programs: the assembler syntax (R81), its encodings, the pseudo-instructions (R82), and a host that
runs a program against one instance, one line a step. Labels are numbers here, and what the spec leaves open of a host
program is fixed as log entry 9 says. -/

namespace Sys2Proof.Machine

/-- A line of a host program (R81). -/
inductive Line where
  /-- `wr REG, imm` -/
  | wr (r : Reg) (imm : Int)
  /-- `rd REG` -/
  | rd (r : Reg)
  /-- `label:` -/
  | label (n : Nat)
  /-- `bbusy label` -/
  | bbusy (n : Nat)
  /-- `buf [b0, b1, ...]`, a launch directive -/
  | buf (bytes : List Byte)
  /-- `; text` -/
  | comment (text : String)
  deriving DecidableEq, Repr

/-- The ASCII bytes of a text (R81). The texts of R81 are ASCII; of another character the low eight bits are taken (log entry
9). -/
def asciiBytes (text : String) : List Byte := text.toList.map fun c => BitVec.ofNat 8 c.toNat

/-- `buf "text"`, a launch directive (R81). -/
def bufText (text : String) : Line := .buf (asciiBytes text)

/-- The encoding column of R81: a line that issues no transaction has none. -/
def Line.encode : Line → Option (BitVec 38)
  | .wr r imm => some (hbusWord true r.off (BitVec.ofInt 32 imm))
  | .rd r => some (hbusWord false r.off 0)
  | .label _ => none
  | .bbusy _ => none
  | .buf _ => none
  | .comment _ => none

/-- A line or a pseudo-instruction (R82). -/
inductive Pseudo where
  | line (l : Line)
  | poll
  | compute (w i p s e : Int)
  | crc8 (i p s e : Int)
  | crc16 (i p s e : Int)
  | crc32 (i p s e : Int)
  | setbuf (bytes : List Byte)
  deriving DecidableEq, Repr

/-- `poll`, with its fresh label (R82). -/
def expandPoll (fresh : Nat) : List Line := [.label fresh, .rd .status, .bbusy fresh]

/-- `compute W, I, P, S, E` (R82). -/
def expandCompute (fresh : Nat) (w i p s e : Int) : List Line :=
  [.wr .init i, .wr .poly p, .wr .start s, .wr .end_ e, .wr .cmd w] ++ expandPoll fresh ++ [.rd .result]

/-- The expansions of R82; `fresh` is a label that the program does not use. -/
def Pseudo.expand (fresh : Nat) : Pseudo → List Line
  | .line l => [l]
  | .poll => expandPoll fresh
  | .compute w i p s e => expandCompute fresh w i p s e
  | .crc8 i p s e => expandCompute fresh 8 i p s e
  | .crc16 i p s e => expandCompute fresh 16 i p s e
  | .crc32 i p s e => expandCompute fresh 32 i p s e
  | .setbuf bytes => [.buf bytes, .wr .len (bytes.length : Int)]

/-- `setbuf "text"` (R82). -/
def setbufText (text : String) : Pseudo := .setbuf (asciiBytes text)

/-- A program's expansion; the labels from `fresh` on are free. -/
def expandProgram : Nat → List Pseudo → List Line
  | _, [] => []
  | fresh, p :: ps => p.expand fresh ++ expandProgram (fresh + 1) ps

/-- The place of a label in a program (R81). DESIGN CHOICE: of a label that stands twice, on which the spec is silent, it is
the first place (log entry 9). -/
def labelPlace : List Line → Nat → Option Nat
  | [], _ => none
  | l :: ls, n =>
    if l = .label n then some 0
    else
      match labelPlace ls n with
      | some i => some (i + 1)
      | none => none

/-- A host that runs a program against instance `inst` of a platform. -/
structure HostRun where
  prog : List Line
  inst : Nat
  pc : Nat
  st : State
  deriving DecidableEq, Repr

/-- The platform takes one step in which the given event comes first. -/
def runEvent (h : HostRun) (ev : Event) : Host.Outcome HostRun Fault Refusal :=
  match step (h.st.setSched (ev :: h.st.sched)) with
  | .next t => .next { h with pc := h.pc + 1, st := t }
  | .fault f => .fault f
  | .refused r => .refused r

/-- `bbusy`: the last value read has bit 0 set (R81). Before the first read there is none, and the branch is not taken. -/
def branchTaken (s : State) : Bool :=
  match s.lastRead with
  | some v => statusBusy v
  | none => false

/-- The window address of the instance the program drives; none if the platform does not have that instance. -/
def HostRun.base (h : HostRun) : Option Nat := (h.st.engines[h.inst]?).map Engine.base

/-- The host makes the access that `acc` gives for the window of its instance. DESIGN CHOICE: on a program driven against an
instance that the platform does not have the spec is silent, and its transactions are refused (log entry 11). -/
def runAccess (h : HostRun) (acc : Nat → Access) : Host.Outcome HostRun Fault Refusal :=
  match h.base with
  | some b => runEvent h (.bus (acc b))
  | none => .refused .noSuchInstance

/-- One line of the host program (R81). A launch directive has run already; a program at its end, or at a branch to a
label it does not have, goes no further. -/
def HostRun.step (h : HostRun) : Host.Outcome HostRun Fault Refusal :=
  match h.prog[h.pc]? with
  | some (.wr r imm) => runAccess h fun b => writeAccess b r (BitVec.ofInt 32 imm)
  | some (.rd r) => runAccess h fun b => readAccess b r
  | some (.label _) => .next { h with pc := h.pc + 1 }
  | some (.bbusy n) =>
    if branchTaken h.st then
      match labelPlace h.prog n with
      | some i => .next { h with pc := i }
      | none => .next h
    else .next { h with pc := h.pc + 1 }
  | some (.buf _) => .next { h with pc := h.pc + 1 }
  | some (.comment _) => .next { h with pc := h.pc + 1 }
  | none => .next h

/-- The launch directives of a program (R81). -/
def launchBytes : List Line → List (List Byte)
  | [] => []
  | .buf bytes :: ls => bytes :: launchBytes ls
  | _ :: ls => launchBytes ls

/-- The steps that put a program's `buf` bytes into `BUF` before its first line runs (R81). DESIGN CHOICE: of several `buf`
lines, on which the spec is silent, the bytes are filled in the order of the lines, so that those of the last one stay (log
entry 9). -/
def launchEvents (inst : Nat) (prog : List Line) : List Event := (launchBytes prog).map (.bufFill inst)

end Sys2Proof.Machine
end

