-- ==== Sys2Proof/Safety.lean ====
section
/-! DEFINITION. What holds of a platform in every state a run reaches (R31 to R34, R38), and what a host must do (R196,
R197). -/

namespace Sys2Proof.Machine

/-- The values of `STATUS` that can occur (R38 (f), R76). -/
def legalStatus : List Word := [0x00, 0x01, 0x02, 0x16, 0x26, 0x36, 0x4A]

/-- What holds of an instance while a command is in progress (R31, R32, R33, R34, R38 (b)). -/
structure Engine.BusyInv (cfg : Config) (e : Engine) : Prop where
  /-- `WSEL` is the selector of the width written to `CMD` (R32). -/
  selector : wselOfWidth (opWidth e.cmd) = some e.wsel
  /-- The command has passed validation, and its operands have not changed since (R119, R161). -/
  valid : validate cfg.minRange (opWidth e.cmd) (opStart e) (opEnd e) (opLen e) = none
  /-- `start <= IDX` (R33). -/
  idx_ge : opStart e ≤ (e.idx.toNat : Int)
  /-- `IDX <= end` (R33). -/
  idx_le : (e.idx.toNat : Int) ≤ opEnd e
  /-- `CRC < 2^w` (R31). -/
  crc_lt : ∀ w, e.wsel.width = some w → e.crc.toNat < 2 ^ w
  /-- `BIT` is 0 except while a byte is being reduced (R34). -/
  bit_zero : e.phase ≠ .reduce → e.bit = 0
  /-- `FINISH` is reached only at the last byte (R36). -/
  finish_at_end : e.phase = .finish → (e.idx.toNat : Int) = opEnd e
  /-- No partial result is visible (R28, R38 (b)). -/
  result_zero : e.result = 0
  /-- The time in which the instance is busy lies in the window of R196. -/
  held : e.bufHeld = true

/-- What holds of an instance in every reachable state (R32, R38). -/
structure Engine.Inv (cfg : Config) (e : Engine) : Prop where
  /-- The values of `STATUS` (R38 (f)). -/
  status_legal : e.status ∈ legalStatus
  /-- R38 (a). -/
  busy_iff : statusBusy e.status = true ↔ e.phase ≠ .idle
  /-- `STATUS` is 0x26 only when `MIN_RANGE_LEN = 2` (R38 (f)). -/
  too_short : e.status = 0x26 → cfg.minRange = .two
  /-- `WSEL = 11` is never written (R32). -/
  selector_legal : e.wsel ≠ .reserved
  /-- `RESULT` is 0 unless the last command succeeded (R28, R38 (b), (e)). -/
  result_zero : e.status ≠ 0x02 → e.result = 0
  /-- After a success, `RESULT < 2^w` (R28). -/
  result_lt : e.status = 0x02 → ∀ w, e.wsel.width = some w → e.result.toNat < 2 ^ w
  /-- A command in progress. -/
  busy : e.phase ≠ .idle → e.BusyInv cfg
  /-- `BUF` is in its canonical form. -/
  buf_wf : e.buf.wf = true

/-- Every instance of the platform satisfies its invariant. -/
def State.Inv (s : State) : Prop := ∀ e ∈ s.engines, e.Inv s.cfg

/-- The memory of every instance is in its canonical form. -/
def State.memWf (s : State) : Prop := ∀ e ∈ s.engines, e.buf.wf = true

/-- The host's duty about `LEN` (R197): at most `2^31 - 1`, and at most the bytes `BUF` really holds. -/
def Engine.lenHonest (e : Engine) : Prop := e.len.toNat ≤ maxInputLen ∧ ∀ a < e.len.toNat, e.buf.read a ≠ none

/-- The bytes a command covers are really there: `bs` is the covered sequence of R142. -/
def Engine.covers (e : Engine) (bs : List Byte) : Prop :=
  (bs.length : Int) = opEnd e - opStart e + 1 ∧
    ∀ j, (h : j < bs.length) → e.buf.read ((opStart e).toNat + j) = some bs[j]

/-- The event touches neither the command of instance `k` nor its `BUF`: it is no reset of it and no write of its `BUF`
(the host's duty of R196 and the case R143 speaks of). -/
def Event.leavesCommand (k : Nat) : Event → Bool
  | .bus _ => true
  | .engine _ => true
  | .reset j => decide (j ≠ k)
  | .bufWrite j _ _ => decide (j ≠ k)
  | .bufFill j _ => decide (j ≠ k)

/-- The one instance that an event other than a bus access acts on. -/
def Event.target : Event → Option Nat
  | .bus _ => none
  | .engine k => some k
  | .reset k => some k
  | .bufWrite k _ _ => some k
  | .bufFill k _ => some k

/-- The number of the instance that the next step acts on, if it acts on one. -/
def State.actor (s : State) : Option Nat :=
  match s.sched with
  | [] => some s.left.length
  | ev :: _ =>
    match ev with
    | .bus a => windowIndex s.engines a.addr
    | .engine k => some k
    | .reset k => some k
    | .bufWrite k _ _ => some k
    | .bufFill k _ => some k

/-- `t` is the platform `s` with instance `k` selected and `rest` still to come, and nothing else different. -/
def State.turnOf (s : State) (k : Nat) (rest : List Event) (t : State) : Prop :=
  t.engines = s.engines ∧ t.left.length = k ∧ t.sched = rest ∧ t.cfg = s.cfg ∧ t.lastRead = s.lastRead

/-- Every piece of state of the table of R40 is at its reset value. -/
def Engine.atResetValues (e : Engine) : Prop :=
  e.cmd = 0 ∧ e.init = 0 ∧ e.poly = 0 ∧ e.start = 0 ∧ e.end_ = 0 ∧ e.len = 0 ∧ e.status = 0 ∧ e.result = 0 ∧
    e.phase = .idle ∧ e.wsel = .w8 ∧ e.crc = 0 ∧ e.idx = 0 ∧ e.bit = 0

/-- The hidden state of R30 is the same in both. -/
def Engine.sameHidden (e e' : Engine) : Prop :=
  e'.phase = e.phase ∧ e'.wsel = e.wsel ∧ e'.crc = e.crc ∧ e'.idx = e.idx ∧ e'.bit = e.bit

/-- Every byte of `BUF` reads the same in both. -/
def Engine.sameBuf (e e' : Engine) : Prop := ∀ a, e'.buf.read a = e.buf.read a

/-- Everything outside the selected instance is the same in both, but for the last value read. -/
def State.sameAround (s t : State) : Prop :=
  t.cfg = s.cfg ∧ t.left = s.left ∧ t.right = s.right ∧ t.sched = s.sched ∧ t.eng.base = s.eng.base

/-- Two windows share no address (R58, R174). -/
abbrev Engine.apart (e e' : Engine) : Prop := e.base + 32 ≤ e'.base ∨ e'.base + 32 ≤ e.base

/-- The register windows of the platform do not overlap: what the platform's placement must give (R8, R58, D19). -/
abbrev State.windowsApart (s : State) : Prop := s.engines.Pairwise Engine.apart

end Sys2Proof.Machine
end

