-- ==== Sys2Proof/Certificates/Slice0/Obligations.lean ====
section
/-! DEFINITION. The statements for the provers, each a `def Obligations.<Name> : Prop`. Every docstring names the rules it
rests on. -/

open Sys2Proof Sys2Proof.Machine

/-! ## Encoding -/

/-- Decoding the encoding of a well-formed instruction gives it back, at every value of its operand (R70 to R78). -/
def Obligations.DecodeOfEncodeIsTheInstruction : Prop :=
  ∀ i : Instr, i.wf = true → decode (encode i) = .instr i

/-- What the decoder gives is well formed; and a write of `CMD` with 8, 16 or 32 is its entry point, and with every other width
`WR_CMD` of that width (R78). -/
def Obligations.DecodedInstructionsAreWellFormed : Prop :=
  (∀ (x : Encoded) (i : Instr), decode x = .instr i → i.wf = true) ∧
  (∀ v : Word, decode (.hbus (0b1#1 ++ (0b00000#5 ++ v))) =
    .instr (if v = 8 then .crc8 else if v = 16 then .crc16 else if v = 32 then .crc32 else .wrCmd v))

/-- No bit of a transaction is dropped but the `DATA` of a read's request (R70, R78, R79). -/
def Obligations.EncodeOfDecodedTransactionIsTheWord : Prop :=
  ∀ (w : BitVec 38) (i : Instr), decode (.hbus w) = .instr i →
    (w.getLsbD 37 = true → encode i = .hbus w) ∧
    (w.getLsbD 37 = false → encode i = .hbus (w &&& 0x3F00000000))

/-- The decoder is total (R83). It refuses an `HBUS` word exactly when `OFF[1:0] != 00` (R79), and gives the others the row of
R78: a row that covers the word, with a mask at least as wide as that of every row of the table that does; and the width of a
decoded `WR_CMD` is the word's `DATA`. A selector has no step, is unreachable, or is an engine step whose row covers it. -/
def Obligations.DecoderIsTotalAndAgreesWithTheRows : Prop :=
  (∀ w : BitVec 38,
    (w.extractLsb' 32 2 ≠ 0 ∧ decode (.hbus w) = .misaligned) ∨
    (w.extractLsb' 32 2 = 0 ∧ ∃ i, decode (.hbus w) = .instr i ∧ i.wf = true ∧ i.row.covers (.hbus w) = true ∧
      (∀ r ∈ opcodeRows, r.covers (.hbus w) = true → r.maskWithin i.row = true) ∧
      ∀ v, i = .wrCmd v → v = w.extractLsb' 0 32)) ∧
  (∀ f : BitVec 4,
    (f.extractLsb' 0 2 = 0b00 ∧ decode (.fsm f) = .noStep) ∨
    (f = 0b1110 ∧ decode (.fsm f) = .unreachableSelector) ∨
    (f.extractLsb' 0 2 ≠ 0b00 ∧ f ≠ 0b1110 ∧
      ∃ i, decode (.fsm f) = .instr i ∧ i.wf = true ∧ i.row.covers (.fsm f) = true))

/-- Rows of the opcode table overlap only where a write of `CMD` is also an entry point (R78). -/
def Obligations.RowsOverlapOnlyAtTheEntryPoints : Prop :=
  opcodeRows.length = 24 ∧
  ∀ i < 24, ∀ j < 24, i < j →
    ((opcodeRows.getD i (.fsm 0 0)).overlaps (opcodeRows.getD j (.fsm 0 0)) = true ↔ i = 0 ∧ 1 ≤ j ∧ j ≤ 3)

/-- Words written out from the spec's encodings decode to their instructions, a few of each family (R70, R78, R79). -/
def Obligations.KnownWordsDecode : Prop :=
  decode (.hbus 0x2000000020) = .instr .crc32 ∧ decode (.hbus 0x2000000010) = .instr .crc16 ∧
  decode (.hbus 0x2000000008) = .instr .crc8 ∧ decode (.hbus 0x2000000018) = .instr (.wrCmd 24) ∧
  decode (.hbus 0x24FFFFFFFF) = .instr (.wrInit 0xFFFFFFFF) ∧
  decode (.hbus 0x3000000008) = .instr (.wrEnd 8) ∧ decode (.hbus 0x3C00000005) = .instr (.wrResult 5) ∧
  decode (.hbus 0x18DEADBEEF) = .instr .rdStatus ∧ decode (.hbus 0x0800000000) = .instr .rdPoly ∧
  decode (.hbus 0x0200000000) = .misaligned ∧
  decode (.fsm 0b1001) = .instr .stepXorByte ∧ decode (.fsm 0b0110) = .instr .stepReduce16 ∧
  decode (.fsm 0b0111) = .instr .stepFinish ∧ decode (.fsm 0b1000) = .noStep ∧
  decode (.fsm 0b1110) = .unreachableSelector

/-- A line of a host program that issues a transaction encodes the transaction it names, `imm` taken modulo `2^32`; the
other lines issue none (R81). -/
def Obligations.ProgramLinesEncodeTheirTransactions : Prop :=
  ∀ (r : Reg) (imm : Int) (n : Nat) (bytes : List Byte) (text : String),
    (∃ w, (Line.wr r imm).encode = some w ∧ w.getLsbD 37 = true ∧
      decode (.hbus w) = .instr (hostWriteInstr r (BitVec.ofInt 32 imm))) ∧
    (∃ w, (Line.rd r).encode = some w ∧ w.getLsbD 37 = false ∧ w.extractLsb' 0 32 = 0 ∧
      decode (.hbus w) = .instr (hostReadInstr r)) ∧
    (Line.label n).encode = none ∧ (Line.bbusy n).encode = none ∧ (Line.buf bytes).encode = none ∧
    (bufText text).encode = none ∧ (Line.comment text).encode = none

/-! ## The step -/

/-- When the next step is a 32-bit access in the window of instance `k` whose word decodes to `i`, the step is `exec i` on
that instance, with the event taken off the list (R12, R39, R58, R70, R78). -/
def Obligations.StepRunsTheDecodedTransaction : Prop :=
  ∀ (s : State) (a : Access) (rest : List Event) (k : Nat) (e : Engine) (i : Instr),
    s.sched = .bus a :: rest → a.bits = 32 → windowIndex s.engines a.addr = some k → s.engines[k]? = some e →
    decode (.hbus (hbusWord a.write (BitVec.ofNat 5 (a.addr - e.base)) a.data)) = .instr i →
    ∃ t, s.turnOf k rest t ∧ t.eng = e ∧ step s = exec i t

/-- When the next step is the turn of instance `k`'s engine agent and its selector decodes to `i`, the step is `exec i` on
that instance; with nothing scheduled the turn is the selected instance's (R12, R35, R74; the model's choice, log entry 7).
-/
def Obligations.StepRunsTheSelectedEngineStep : Prop :=
  (∀ (s : State) (rest : List Event) (k : Nat) (e : Engine) (i : Instr),
    s.sched = .engine k :: rest → s.engines[k]? = some e →
    decode (.fsm (e.wsel.code ++ e.phase.code)) = .instr i →
    ∃ t, s.turnOf k rest t ∧ t.eng = e ∧ step s = exec i t) ∧
  (∀ (s : State) (i : Instr), s.sched = [] → decode (.fsm (s.eng.wsel.code ++ s.eng.phase.code)) = .instr i →
    step s = exec i s)

/-- An idle instance takes no engine step and keeps all its state (R176), also when nothing is scheduled (the model's choice,
log entry 7). -/
def Obligations.IdleEngineTakesNoStep : Prop :=
  (∀ (s : State) (rest : List Event) (k : Nat) (e : Engine),
    s.sched = .engine k :: rest → s.engines[k]? = some e → e.phase = .idle →
    ∃ t, s.turnOf k rest t ∧ step s = .next t) ∧
  (∀ s : State, s.sched = [] → s.eng.phase = .idle → step s = .next s)

/-- The reserved selector is a fault (R79, R177). -/
def Obligations.UnreachableSelectorIsAFault : Prop :=
  ∀ (s : State) (rest : List Event) (k : Nat) (e : Engine),
    s.sched = .engine k :: rest → s.engines[k]? = some e → e.phase = .reduce → e.wsel = .reserved →
    step s = .fault .unreachableSelector

/-- An access that is not 32 bits wide, or not at a multiple of 4 in its window, is refused (R55, R79, R177). The model's own
choice (log entry 11): an access in no window is refused too, and one that is not 32 bits wide is refused whatever its
address. -/
def Obligations.AccessesThatDoNotExistAreRefused : Prop :=
  ∀ (s : State) (a : Access) (rest : List Event), s.sched = .bus a :: rest →
    (a.bits ≠ 32 → step s = .refused .accessNot32Bits) ∧
    (a.bits = 32 → (∀ e ∈ s.engines, e.inWindow a.addr = false) → step s = .refused .outsideEveryWindow) ∧
    (∀ k e, a.bits = 32 → windowIndex s.engines a.addr = some k → s.engines[k]? = some e →
      (a.addr - e.base) % 4 ≠ 0 → step s = .refused .misalignedAccess)

/-- A write of `BUF` while its instance is busy, or before a read of `STATUS` has returned `BUSY = 0` since its last command,
is a fault (R177, R196); at every other time it stores its byte and leaves the others, up to the longest input (R122). The
model's own choice: a reset closes that time (log entry 12), and a byte past the longest input is refused, unless the fault
comes first (log entry 13). -/
def Obligations.BufferWritesFaultOnlyInTheirWindow : Prop :=
  ∀ (s : State) (rest : List Event) (k a : Nat) (b : Byte) (e : Engine),
    s.sched = .bufWrite k a b :: rest → s.engines[k]? = some e →
    (e.phase ≠ .idle ∨ e.bufHeld = true → step s = .fault .hostBufferWriteWhileBusy) ∧
    (e.phase = .idle → e.bufHeld = false → a + 1 ≤ 0x7FFFFFFF → ∃ t m, s.turnOf k rest t ∧ t.eng = e ∧
      step s = .next (t.setEng { e with buf := m }) ∧
      m.read a = some b ∧ ∀ a', a' ≠ a → m.read a' = e.buf.read a') ∧
    (e.phase = .idle → e.bufHeld = false → 0x7FFFFFFF < a + 1 → step s = .refused .inputTooLong)

/-- Filling `BUF` makes it hold exactly the given bytes, at the times at which `BUF` may be written; at the others it is a
fault, and a list longer than the longest input is refused (R50, R122, R177, R192, R196). The model's own choice: the whole
fill is one step, which leaves `BUF` holding exactly the input (log entry 18); a reset closes the window of R196 (log entry
12); and the fault comes before the refusal (log entry 13). -/
def Obligations.BufferFillHoldsExactlyTheInput : Prop :=
  ∀ (s : State) (rest : List Event) (k : Nat) (bytes : List Byte) (e : Engine),
    s.sched = .bufFill k bytes :: rest → s.engines[k]? = some e →
    (e.phase ≠ .idle ∨ e.bufHeld = true → step s = .fault .hostBufferWriteWhileBusy) ∧
    (e.phase = .idle → e.bufHeld = false → bytes.length ≤ 0x7FFFFFFF → ∃ t m, s.turnOf k rest t ∧ t.eng = e ∧
      step s = .next (t.setEng { e with buf := m }) ∧ ∀ a, m.read a = bytes[a]?) ∧
    (e.phase = .idle → e.bufHeld = false → 0x7FFFFFFF < bytes.length → step s = .refused .inputTooLong)

/-- Reset puts every piece of state of its instance at the value of R40, whatever was in progress, and leaves `BUF` and the
other instances alone (R40, R190); the state after reset holds those values too. -/
def Obligations.ResetPutsEveryPieceAtItsValue : Prop :=
  (∀ e ∈ State.reset.engines, e.atResetValues) ∧
  ∀ (s : State) (rest : List Event) (k : Nat) (e : Engine),
    s.sched = .reset k :: rest → s.engines[k]? = some e →
    ∃ t e', s.turnOf k rest t ∧ step s = .next (t.setEng e') ∧ e'.atResetValues ∧ e'.buf = e.buf ∧ e'.base = e.base

/-! ## Host writes -/

/-- While `PHASE != IDLE` every host write has no effect, and host reads are unaffected (R119): they answer with their
register and change nothing of the block. -/
def Obligations.WritesWhileBusyHaveNoEffect : Prop :=
  ∀ (s : State) (v : Word), s.eng.phase ≠ .idle →
    exec (.wrCmd v) s = .next s ∧ exec .crc8 s = .next s ∧ exec .crc16 s = .next s ∧ exec .crc32 s = .next s ∧
    exec (.wrInit v) s = .next s ∧ exec (.wrPoly v) s = .next s ∧ exec (.wrStart v) s = .next s ∧
    exec (.wrEnd v) s = .next s ∧ exec (.wrLen v) s = .next s ∧ exec (.wrStatus v) s = .next s ∧
    exec (.wrResult v) s = .next s ∧
    ∀ r : Reg, ∃ held, exec (hostReadInstr r) s =
      .next { s with eng := { s.eng with bufHeld := held }, lastRead := some (s.eng.readReg r) }

/-- A write of an operand register while idle stores its value in full and changes nothing else (R104 to R108). -/
def Obligations.OperandWritesStoreTheirData : Prop :=
  ∀ (s : State) (v : Word), s.eng.phase = .idle →
    exec (.wrInit v) s = .next { s with eng := { s.eng with init := v } } ∧
    exec (.wrPoly v) s = .next { s with eng := { s.eng with poly := v } } ∧
    exec (.wrStart v) s = .next { s with eng := { s.eng with start := v } } ∧
    exec (.wrEnd v) s = .next { s with eng := { s.eng with end_ := v } } ∧
    exec (.wrLen v) s = .next { s with eng := { s.eng with len := v } }

/-- A write of `STATUS` or `RESULT` has no effect, busy or idle (R109, R110). -/
def Obligations.StatusAndResultIgnoreWrites : Prop :=
  ∀ (s : State) (v : Word), exec (.wrStatus v) s = .next s ∧ exec (.wrResult v) s = .next s

/-- The frame of the register writes: a write of register `r` other than `CMD` leaves every other register, the hidden
state, every byte of `BUF` and everything around the instance as they were, and a write of a read-only register leaves
that register too (R57, R104 to R110). -/
def Obligations.RegisterWriteFrame : Prop :=
  ∀ (s t : State) (r : Reg) (v : Word), r ≠ .cmd → exec (hostWriteInstr r v) s = .next t →
    (∀ r', r' ≠ r ∨ r = .status ∨ r = .result → t.eng.readReg r' = s.eng.readReg r') ∧
    s.eng.sameHidden t.eng ∧ s.eng.sameBuf t.eng ∧ t.eng.bufHeld = s.eng.bufHeld ∧ s.sameAround t ∧
    t.lastRead = s.lastRead

/-! ## Host reads -/

/-- A host read answers with the register, in every phase, and has no side effect in the block (R57, R111 to R118). A read of
`STATUS` that returns `BUSY = 0` closes the time in which `BUF` may not be written (R196). -/
def Obligations.ReadsReturnTheirRegister : Prop :=
  ∀ s : State,
    exec .rdCmd s = .next { s with lastRead := some s.eng.cmd } ∧
    exec .rdInit s = .next { s with lastRead := some s.eng.init } ∧
    exec .rdPoly s = .next { s with lastRead := some s.eng.poly } ∧
    exec .rdStart s = .next { s with lastRead := some s.eng.start } ∧
    exec .rdEnd s = .next { s with lastRead := some s.eng.end_ } ∧
    exec .rdLen s = .next { s with lastRead := some s.eng.len } ∧
    exec .rdStatus s = .next { s with
      eng := { s.eng with bufHeld := s.eng.bufHeld && statusBusy s.eng.status }, lastRead := some s.eng.status } ∧
    exec .rdResult s = .next { s with lastRead := some s.eng.result }

/-- The frame of the register reads: every register, the hidden state, every byte of `BUF` and everything around the
instance stay as they were (R57, R111 to R118); so does the window of R196, but for a read of `STATUS` that returns
`BUSY = 0`. -/
def Obligations.RegisterReadFrame : Prop :=
  ∀ (s t : State) (r : Reg), exec (hostReadInstr r) s = .next t →
    (∀ r', t.eng.readReg r' = s.eng.readReg r') ∧ s.eng.sameHidden t.eng ∧ s.eng.sameBuf t.eng ∧ s.sameAround t ∧
    (r ≠ .status ∨ statusBusy s.eng.status = true → t.eng.bufHeld = s.eng.bufHeld)

/-! ## Commands -/

/-- `validate` gives the first failure in the order of R161, with its kind, and accepts exactly the ranges and widths R161
says. -/
def Obligations.ValidateGivesTheFirstFailure : Prop :=
  ∀ (p : MinRange) (width s e : Int) (len : Nat),
    (validate p width s e len = some .endBeforeStart ↔ e < s) ∧
    (validate p width s e len = some .spanTooShort ↔ s ≤ e ∧ e - s + 1 < (p.toNat : Int)) ∧
    (validate p width s e len = some .badWidth ↔
      s ≤ e ∧ (p.toNat : Int) ≤ e - s + 1 ∧ ¬(width = 8 ∨ width = 16 ∨ width = 32)) ∧
    (validate p width s e len = some .outOfBounds ↔
      s ≤ e ∧ (p.toNat : Int) ≤ e - s + 1 ∧ (width = 8 ∨ width = 16 ∨ width = 32) ∧
        (s < 0 ∨ s ≥ len ∨ e < 0 ∨ e ≥ len)) ∧
    (validate p width s e len = none ↔
      0 ≤ s ∧ s ≤ e ∧ e < len ∧ (p.toNat : Int) ≤ e - s + 1 ∧ (width = 8 ∨ width = 16 ∨ width = 32)) ∧
    Reason.kind .endBeforeStart = .invalidRange ∧ Reason.kind .spanTooShort = .invalidRange ∧
    Reason.kind .badWidth = .unsupportedWidth ∧ Reason.kind .outOfBounds = .invalidRange

/-- A write of `CMD` that passes validation while idle starts the command (R100, R140): `CMD` stored, `RESULT` cleared,
`STATUS = 0x01`, `CRC` the initial value masked to the width, `IDX` the start index, `BIT = 0`, `PHASE = XOR_BYTE`; and from
here on `BUF` may not be written (R196). -/
def Obligations.ValidCommandStartsTheEngine : Prop :=
  ∀ (s : State) (v : Word) (x : WSel), s.eng.phase = .idle →
    validate s.cfg.minRange v.toNat s.eng.start.toInt s.eng.end_.toInt s.eng.len.toNat = none →
    (x = .w8 ∧ v = 8 ∨ x = .w16 ∧ v = 16 ∨ x = .w32 ∧ v = 32) →
    exec (.wrCmd v) s = .next { s with eng := { s.eng with
      cmd := v, result := 0, status := 0x00000001, wsel := x, idx := s.eng.start, bit := 0, phase := .xorByte,
      crc := s.eng.init &&& (BitVec.ofNat 32 (2 ^ v.toNat - 1)), bufHeld := true } }

/-- The entry points start their commands (R101 to R103); from here on `BUF` may not be written (R196). -/
def Obligations.EntryPointsStartTheirCommands : Prop :=
  ∀ s : State, s.eng.phase = .idle →
    (validate s.cfg.minRange 8 s.eng.start.toInt s.eng.end_.toInt s.eng.len.toNat = none →
      exec .crc8 s = .next { s with eng := { s.eng with
        cmd := 8, result := 0, status := 0x00000001, wsel := .w8, crc := s.eng.init &&& 0xFF, idx := s.eng.start,
        bit := 0, phase := .xorByte, bufHeld := true } }) ∧
    (validate s.cfg.minRange 16 s.eng.start.toInt s.eng.end_.toInt s.eng.len.toNat = none →
      exec .crc16 s = .next { s with eng := { s.eng with
        cmd := 16, result := 0, status := 0x00000001, wsel := .w16, crc := s.eng.init &&& 0xFFFF, idx := s.eng.start,
        bit := 0, phase := .xorByte, bufHeld := true } }) ∧
    (validate s.cfg.minRange 32 s.eng.start.toInt s.eng.end_.toInt s.eng.len.toNat = none →
      exec .crc32 s = .next { s with eng := { s.eng with
        cmd := 32, result := 0, status := 0x00000001, wsel := .w32, crc := s.eng.init, idx := s.eng.start,
        bit := 0, phase := .xorByte, bufHeld := true } })

/-- An entry point is the generic command with its width fixed, in every state (R78, R101 to R103). -/
def Obligations.EntryPointsAreTheGenericCommand : Prop :=
  ∀ s : State, exec .crc8 s = exec (.wrCmd 8) s ∧ exec .crc16 s = exec (.wrCmd 16) s ∧
    exec .crc32 s = exec (.wrCmd 32) s

/-- The error report: a write of `CMD` that fails validation while idle stores `CMD`, leaves `RESULT` 0 and writes the kind
and the cause to `STATUS`; nothing else of the block changes, so no byte is read and no engine step follows (R163). The write
was accepted, so `BUF` may not be written until `STATUS` is read (R196). -/
def Obligations.FailedCommandReportsItsError : Prop :=
  ∀ (s : State) (v : Word) (r : Reason), s.eng.phase = .idle →
    validate s.cfg.minRange v.toNat s.eng.start.toInt s.eng.end_.toInt s.eng.len.toNat = some r →
    exec (.wrCmd v) s = .next { s with eng := { s.eng with
      cmd := v, result := 0,
      status := r.code.setWidth 32 <<< 4 ||| r.kind.code.setWidth 32 <<< 2 ||| 1#32 <<< 1, bufHeld := true } }

/-- The four causes, their kinds and the `STATUS` each leaves (R76, R160). -/
def Obligations.ErrorCausesHaveTheirStatus : Prop :=
  (statusError .endBeforeStart = 0x16 ∧ Reason.kind .endBeforeStart = .invalidRange) ∧
  (statusError .spanTooShort = 0x26 ∧ Reason.kind .spanTooShort = .invalidRange) ∧
  (statusError .outOfBounds = 0x36 ∧ Reason.kind .outOfBounds = .invalidRange) ∧
  (statusError .badWidth = 0x4A ∧ Reason.kind .badWidth = .unsupportedWidth) ∧
  ∀ r : Reason, statusDone (statusError r) = true ∧ statusBusy (statusError r) = false ∧
    statusErr (statusError r) = r.kind.code ∧ statusReason (statusError r) = r.code

/-- A write of `CMD` straight after reset fails: SPAN_TOO_SHORT for every width under `MIN_RANGE_LEN = 2`; under
`MIN_RANGE_LEN = 1`, OUT_OF_BOUNDS for a supported width and BAD_WIDTH for another. The last clause follows R161's order and
not R193's words, which the model holds to be a slip (log entry 10). -/
def Obligations.CommandAfterResetFails : Prop :=
  ∀ (s : State) (v : Word), s.eng.atResetValues →
    (s.cfg.minRange = .two →
      exec (.wrCmd v) s = .next { s with eng := { s.eng with cmd := v, status := 0x26, bufHeld := true } }) ∧
    (s.cfg.minRange = .one → v = 8 ∨ v = 16 ∨ v = 32 →
      exec (.wrCmd v) s = .next { s with eng := { s.eng with cmd := v, status := 0x36, bufHeld := true } }) ∧
    (s.cfg.minRange = .one → ¬(v = 8 ∨ v = 16 ∨ v = 32) →
      exec (.wrCmd v) s = .next { s with eng := { s.eng with cmd := v, status := 0x4A, bufHeld := true } })

/-- The frame of the commands: the operand registers, every byte of `BUF` and everything around the instance stay as they
were, and so does the last value read; a command that does not start leaves the hidden state too (R29, R52, R163). The window
of R196 is open after a command accepted while idle, and as before after one that was not. -/
def Obligations.CommandFrame : Prop :=
  ∀ (s t : State) (v : Word), exec (hostWriteInstr .cmd v) s = .next t →
    t.eng.init = s.eng.init ∧ t.eng.poly = s.eng.poly ∧ t.eng.start = s.eng.start ∧ t.eng.end_ = s.eng.end_ ∧
    t.eng.len = s.eng.len ∧ s.eng.sameBuf t.eng ∧ s.sameAround t ∧ t.lastRead = s.lastRead ∧
    (t.eng.phase = s.eng.phase → s.eng.sameHidden t.eng) ∧ (s.eng.phase = .idle → t.eng.bufHeld = true) ∧
    (s.eng.phase ≠ .idle → t.eng.bufHeld = s.eng.bufHeld)

/-- Every transaction of the host is allowed at every step and answers a next state (R120, R124, R171). -/
def Obligations.EveryTransactionCompletes : Prop :=
  ∀ (s : State) (r : Reg) (v : Word),
    (∃ t, exec (hostWriteInstr r v) s = .next t) ∧ (∃ t, exec (.wrCmd v) s = .next t) ∧
    (∃ t, exec (hostReadInstr r) s = .next t)

/-! ## The reduction -/

/-- `poly_xor_network_w` as arithmetic on unsigned integers: a logical shift by one, the polynomial XORed in when the low bit
was 1, masked to `w` bits (R130). -/
def Obligations.NetworkIsShiftAndConditionalXor : Prop :=
  ∀ (w : Nat), w = 8 ∨ w = 16 ∨ w = 32 → ∀ c p : BitVec w,
    (polyXorNetwork c p).toNat =
      if c.toNat % 2 = 1 then ((c.toNat / 2) ^^^ p.toNat) % 2 ^ w else (c.toNat / 2) % 2 ^ w

/-- The network bit by bit (R131). -/
def Obligations.NetworkBitByBit : Prop :=
  ∀ (w : Nat), w = 8 ∨ w = 16 ∨ w = 32 → ∀ c p : BitVec w,
    (∀ j, j + 2 ≤ w → (polyXorNetwork c p).getLsbD j = (c.getLsbD (j + 1) ^^ (c.getLsbD 0 && p.getLsbD j))) ∧
    (polyXorNetwork c p).getLsbD (w - 1) = (c.getLsbD 0 && p.getLsbD (w - 1))

/-- The reducers apply the network to the low bits, ignore the other bits of the polynomial, and give a value of their
width (R132 to R134). -/
def Obligations.ReducersApplyTheNetworkAtTheirWidth : Prop :=
  ∀ c p : Word,
    (crc8Reducer c p).toNat = (polyXorNetwork (c.extractLsb' 0 8) (p.extractLsb' 0 8)).toNat ∧
    (crc16Reducer c p).toNat = (polyXorNetwork (c.extractLsb' 0 16) (p.extractLsb' 0 16)).toNat ∧
    crc32Reducer c p = polyXorNetwork c p ∧
    crc8Reducer c p = crc8Reducer c (p &&& 0xFF) ∧ crc16Reducer c p = crc16Reducer c (p &&& 0xFFFF) ∧
    (crc8Reducer c p).toNat < 2 ^ 8 ∧ (crc16Reducer c p).toNat < 2 ^ 16

/-- `crcCore` is linear over GF(2) in the initial value and the bytes together, and is 0 on zeros (R147). -/
def Obligations.CrcCoreIsLinear : Prop :=
  ∀ (w : Nat), w = 8 ∨ w = 16 ∨ w = 32 → ∀ (p : BitVec w),
    (∀ (a a' : BitVec w) (bs bs' : List Byte), bs.length = bs'.length →
      crcCore (a ^^^ a') p (List.zipWith (· ^^^ ·) bs bs') = crcCore a p bs ^^^ crcCore a' p bs') ∧
    (∀ n, crcCore 0#w p (List.replicate n 0) = 0#w)

/-! ## Engine steps -/

/-- `STEP_XOR_BYTE` XORs the byte at `IDX` into the low bits of `CRC` (R135). Past the real end of `BUF` the engine has no step
and is stuck (R50, R177); that the step is there the fault `bufferReadNotAdmitted` is the model's own choice (log entry 6).
-/
def Obligations.XorByteStepTakesItsByte : Prop :=
  ∀ s : State,
    (∀ b, s.eng.buf.read s.eng.idx.toNat = some b →
      exec .stepXorByte s = .next { s with eng := { s.eng with
        crc := s.eng.crc ^^^ b.setWidth 32, bit := 0, phase := .reduce } }) ∧
    (s.eng.buf.read s.eng.idx.toNat = none → exec .stepXorByte s = .fault .bufferReadNotAdmitted)

/-- `STEP_REDUCE8` (R136), its three cases: a bit of the byte, the last bit of the last byte, the last bit of another. -/
def Obligations.Reduce8StepReduces : Prop :=
  ∀ s : State,
    (s.eng.bit.toNat < 7 → exec .stepReduce8 s = .next { s with eng := { s.eng with
      crc := crc8Reducer s.eng.crc s.eng.poly, bit := s.eng.bit + 1 } }) ∧
    (s.eng.bit.toNat = 7 → (s.eng.idx.toNat : Int) = s.eng.end_.toInt →
      exec .stepReduce8 s = .next { s with eng := { s.eng with
        crc := crc8Reducer s.eng.crc s.eng.poly, bit := 0, phase := .finish } }) ∧
    (s.eng.bit.toNat = 7 → (s.eng.idx.toNat : Int) ≠ s.eng.end_.toInt →
      exec .stepReduce8 s = .next { s with eng := { s.eng with
        crc := crc8Reducer s.eng.crc s.eng.poly, bit := 0, idx := s.eng.idx + 1, phase := .xorByte } })

/-- `STEP_REDUCE16` (R137), its three cases. -/
def Obligations.Reduce16StepReduces : Prop :=
  ∀ s : State,
    (s.eng.bit.toNat < 7 → exec .stepReduce16 s = .next { s with eng := { s.eng with
      crc := crc16Reducer s.eng.crc s.eng.poly, bit := s.eng.bit + 1 } }) ∧
    (s.eng.bit.toNat = 7 → (s.eng.idx.toNat : Int) = s.eng.end_.toInt →
      exec .stepReduce16 s = .next { s with eng := { s.eng with
        crc := crc16Reducer s.eng.crc s.eng.poly, bit := 0, phase := .finish } }) ∧
    (s.eng.bit.toNat = 7 → (s.eng.idx.toNat : Int) ≠ s.eng.end_.toInt →
      exec .stepReduce16 s = .next { s with eng := { s.eng with
        crc := crc16Reducer s.eng.crc s.eng.poly, bit := 0, idx := s.eng.idx + 1, phase := .xorByte } })

/-- `STEP_REDUCE32` (R138), its three cases. -/
def Obligations.Reduce32StepReduces : Prop :=
  ∀ s : State,
    (s.eng.bit.toNat < 7 → exec .stepReduce32 s = .next { s with eng := { s.eng with
      crc := crc32Reducer s.eng.crc s.eng.poly, bit := s.eng.bit + 1 } }) ∧
    (s.eng.bit.toNat = 7 → (s.eng.idx.toNat : Int) = s.eng.end_.toInt →
      exec .stepReduce32 s = .next { s with eng := { s.eng with
        crc := crc32Reducer s.eng.crc s.eng.poly, bit := 0, phase := .finish } }) ∧
    (s.eng.bit.toNat = 7 → (s.eng.idx.toNat : Int) ≠ s.eng.end_.toInt →
      exec .stepReduce32 s = .next { s with eng := { s.eng with
        crc := crc32Reducer s.eng.crc s.eng.poly, bit := 0, idx := s.eng.idx + 1, phase := .xorByte } })

/-- `STEP_FINISH` writes the masked result, sets `STATUS = 0x02` and goes idle (R139). At the code `WSEL = 11`, whose mask
the spec does not state (log entry 5), it does the same with some value in `RESULT`. -/
def Obligations.FinishStepWritesTheResult : Prop :=
  ∀ s : State,
    (∀ w, s.eng.wsel = .w8 ∧ w = 8 ∨ s.eng.wsel = .w16 ∧ w = 16 ∨ s.eng.wsel = .w32 ∧ w = 32 →
      exec .stepFinish s = .next { s with eng := { s.eng with
        result := (s.eng.crc ^^^ (s.cfg.xorOut &&& BitVec.ofNat 32 (2 ^ w - 1))) &&& BitVec.ofNat 32 (2 ^ w - 1),
        status := 0x00000002, phase := .idle } }) ∧
    (s.eng.wsel = .reserved → ∃ v, exec .stepFinish s = .next { s with eng := { s.eng with
      result := v, status := 0x00000002, phase := .idle } })

/-- The frame of the engine steps: no operand register, no byte of `BUF` and nothing around the instance changes; only
`STEP_FINISH` writes `STATUS` and `RESULT`, and it leaves `WSEL`, `CRC`, `IDX` and `BIT`; no other step changes `WSEL`; and
`STEP_XOR_BYTE` leaves `IDX` (R29, R52, R135 to R139). -/
def Obligations.EngineStepFrame : Prop :=
  ∀ (s t : State) (i : Instr),
    i = .stepXorByte ∨ i = .stepReduce8 ∨ i = .stepReduce16 ∨ i = .stepReduce32 ∨ i = .stepFinish →
    exec i s = .next t →
    (∀ r, r ≠ .status → r ≠ .result → t.eng.readReg r = s.eng.readReg r) ∧
    (i ≠ .stepFinish → t.eng.status = s.eng.status ∧ t.eng.result = s.eng.result) ∧
    (i = .stepFinish → t.eng.crc = s.eng.crc ∧ t.eng.idx = s.eng.idx ∧ t.eng.bit = s.eng.bit) ∧
    (i = .stepXorByte → t.eng.idx = s.eng.idx) ∧
    t.eng.wsel = s.eng.wsel ∧ s.eng.sameBuf t.eng ∧ t.eng.bufHeld = s.eng.bufHeld ∧ s.sameAround t ∧
    t.lastRead = s.lastRead

/-! ## The machine -/

/-- No instruction writes `BUF`, another instance or a parameter (R8, R52, R174). -/
def Obligations.NoInstructionWritesMemoryOrOthers : Prop :=
  ∀ (i : Instr) (s t : State), exec i s = .next t → t.eng.buf = s.eng.buf ∧ s.sameAround t

/-- `STATUS` and `RESULT` are written only by a command accepted while idle, by `STEP_FINISH` and by reset; an accepted command
clears `RESULT` (R27, R28, R37). Among the instructions, by a command and by `STEP_FINISH`; and in a step of the platform, by
the host's write of `CMD` to that instance, by the turn of its engine in `PHASE = FINISH`, or by its reset. -/
def Obligations.OnlyCommandsFinishAndResetWriteStatusAndResult : Prop :=
  (∀ (i : Instr) (s t : State), exec i s = .next t →
    t.eng.status ≠ s.eng.status ∨ t.eng.result ≠ s.eng.result →
    (s.eng.phase = .idle ∧ t.eng.result = 0 ∧ ((∃ v, i = .wrCmd v) ∨ i = .crc8 ∨ i = .crc16 ∨ i = .crc32)) ∨
    (i = .stepFinish ∧ t.eng.status = 0x02)) ∧
  (∀ (s t : State) (k : Nat) (e e' : Engine), step s = .next t → s.engines[k]? = some e → t.engines[k]? = some e' →
    e'.status ≠ e.status ∨ e'.result ≠ e.result →
    (e.phase = .idle ∧ e'.result = 0 ∧ ∃ a rest, s.sched = .bus a :: rest ∧ a.write = true ∧ a.addr = e.base) ∨
    (e.phase = .finish ∧ e'.status = 0x02 ∧ s.actor = some k ∧ (s.sched = [] ∨ ∃ rest, s.sched = .engine k :: rest)) ∨
    (e'.status = 0 ∧ e'.result = 0 ∧ ∃ rest, s.sched = .reset k :: rest))

/-- A step changes no instance but the one it acts on, and never a parameter, a window address or the number of instances
(R8, R174). -/
def Obligations.OtherInstancesAndParametersStay : Prop :=
  ∀ s t : State, step s = .next t →
    t.cfg = s.cfg ∧ t.engines.map Engine.base = s.engines.map Engine.base ∧
    ∀ j, s.actor ≠ some j → t.engines[j]? = s.engines[j]?

/-- Two steps on different instances give the same platform in either order (R150, R174). -/
def Obligations.StepsOfDifferentInstancesCommute : Prop :=
  ∀ (s a : State) (x y : Event) (j k : Nat), x.target = some j → y.target = some k → j ≠ k →
    Host.Core.run Sys2Proof.core 2 (s.setSched [x, y]) = .next a →
    ∃ b, Host.Core.run Sys2Proof.core 2 (s.setSched [y, x]) = .next b ∧
      b.engines = a.engines ∧ b.cfg = a.cfg ∧ b.lastRead = a.lastRead ∧ b.sched = a.sched

/-- Every step keeps the memory of every instance in its canonical form, from every state in which it is in that form. The
form, indices strictly rising, is the model's own representation of `BUF` (log entry 6). -/
def Obligations.StepKeepsMemoryCanonical : Prop :=
  ∀ s t : State, s.memWf → step s = .next t → t.memWf

/-- The invariants of R31 to R34 and R38 hold right after reset. -/
def Obligations.ResetSatisfiesTheInvariant : Prop := State.reset.Inv

/-- Every step keeps the invariants of R31 to R34 and R38, from every state that has them, whatever agent takes it. -/
def Obligations.StepKeepsTheInvariant : Prop :=
  ∀ s t : State, s.Inv → step s = .next t → t.Inv

/-- R38 in every reachable state: however many instances a platform has, whatever its parameters and whatever its agents do,
every state that it reaches from reset values has (a) to (f); and each value of `STATUS` that (f) lists is reached. -/
def Obligations.ReachableStatesSatisfyR38 : Prop :=
  (∀ (s t : State) (n : Nat), (∀ e ∈ s.engines, e.atResetValues ∧ e.buf.wf = true) →
    Host.Core.run Sys2Proof.core n s = .next t → ∀ e ∈ t.engines,
    (statusBusy e.status = true ↔ e.phase ≠ .idle) ∧
    (statusBusy e.status = true →
      statusDone e.status = false ∧ statusErr e.status = 0 ∧ statusReason e.status = 0 ∧ e.result = 0) ∧
    (statusErr e.status = 0 ↔ statusReason e.status = 0) ∧
    (statusErr e.status = 1 → statusReason e.status = 1 ∨ statusReason e.status = 2 ∨ statusReason e.status = 3) ∧
    (statusErr e.status = 2 → statusReason e.status = 4) ∧
    (statusErr e.status ≠ 0 → statusDone e.status = true ∧ e.result = 0) ∧
    e.status ∈ [0x00, 0x01, 0x02, 0x16, 0x26, 0x36, 0x4A] ∧ (e.status = 0x26 → t.cfg.minRange = .two)) ∧
  ∀ v ∈ [0x00, 0x01, 0x02, 0x16, 0x26, 0x36, 0x4A], ∃ (evs : List Event) (n : Nat) (t : State),
    Host.Core.run Sys2Proof.core n (State.reset.setSched evs) = .next t ∧ t.eng.status = v

/-- No error arises during a computation (R164): the engine of a busy instance, whose host has kept the duties of R197,
takes its step. -/
def Obligations.BusyEngineNeverStops : Prop :=
  ∀ (s : State) (k : Nat) (rest : List Event) (e : Engine), s.Inv → s.sched = .engine k :: rest →
    s.engines[k]? = some e → e.phase ≠ .idle → e.lenHonest → ∃ t, step s = .next t

/-- Bytes outside the range of the command in progress never affect what the engine does (R51, R148): with `BUF` replaced by
one that holds the same bytes in the range, the engine's steps give the same state but for `BUF`. -/
def Obligations.BytesOutsideTheRangeNeverMatter : Prop :=
  ∀ (s t : State) (m : Memory) (n : Nat), s.Inv → s.eng.phase ≠ .idle →
    s.sched = List.replicate n (.engine s.left.length) →
    (∀ a : Nat, opStart s.eng ≤ a → (a : Int) ≤ opEnd s.eng → m.read a = s.eng.buf.read a) →
    Host.Core.run Sys2Proof.core n s = .next t →
    Host.Core.run Sys2Proof.core n (s.setEng { s.eng with buf := m }) = .next (t.setEng { t.eng with buf := m })

/-- The engine runs a started command to its end (R142, R143, R164): over `n` bytes that `BUF` really holds it takes `9n + 1`
engine steps to idle, with `STATUS = 0x02` and the functional core's value in `RESULT`. -/
def Obligations.EngineComputesTheChecksum : Prop :=
  ∀ (s : State) (x : WSel) (w : Nat) (bs : List Byte) (e : Engine) (v : Word),
    s.sched = List.replicate (9 * bs.length + 1) (.engine s.left.length) → e.phase = .idle →
    s.eng = acceptCommand s.cfg v e →
    validate s.cfg.minRange (opWidth v) (opStart e) (opEnd e) (opLen e) = none →
    wselOfWidth (opWidth v) = some x → x.width = some w → e.covers bs →
    ∃ t, Host.Core.run Sys2Proof.core (9 * bs.length + 1) s = .next t ∧
      t.eng.phase = .idle ∧ t.eng.status = 0x02 ∧
      t.eng.result = (crcValue w s.cfg.xorOut e.init.toNat e.poly.toNat bs).setWidth 32

/-- The same under every interleaving (R143, R150): instance `k` has just accepted a command, and the platform takes the
steps `evs`, among them host transactions and steps of other instances, but no reset of `k` and no write of its `BUF`. After
`9m` engine steps of `k`, `CRC` is the core over the first `m` bytes; after exactly `9n + 1`, `k` is idle with the checksum
in `RESULT`. -/
def Obligations.EveryInterleavingComputesTheChecksum : Prop :=
  ∀ (s t : State) (k : Nat) (evs rest : List Event) (x : WSel) (w : Nat) (bs : List Byte) (e : Engine) (v : Word),
    s.sched = evs ++ rest → (∀ ev ∈ evs, ev.leavesCommand k = true) →
    e.phase = .idle → s.engines[k]? = some (acceptCommand s.cfg v e) →
    validate s.cfg.minRange (opWidth v) (opStart e) (opEnd e) (opLen e) = none →
    wselOfWidth (opWidth v) = some x → x.width = some w → e.covers bs →
    Host.Core.run Sys2Proof.core evs.length s = .next t →
    (∀ m, 0 < m → m ≤ bs.length → evs.count (.engine k) = 9 * m →
      ∃ e', t.engines[k]? = some e' ∧
        e'.crc = (crcCore (BitVec.ofNat w e.init.toNat) (BitVec.ofNat w e.poly.toNat) (bs.take m)).setWidth 32) ∧
    (evs.count (.engine k) = 9 * bs.length + 1 → evs.getLast? = some (.engine k) →
      ∃ e', t.engines[k]? = some e' ∧ e'.phase = .idle ∧ e'.status = 0x02 ∧
        e'.result = (crcValue w s.cfg.xorOut e.init.toNat e.poly.toNat bs).setWidth 32)

/-! ## The host's contract -/

/-- A host that follows R121 and R123 on an idle instance returns exactly `computeCRC` of its operands, when they fit the
registers (R145): it fills `BUF` and writes the operands in any order (`before` comes before the fill, `after` after it),
writes `CMD` last, and the instance then takes the `9n + 1` engine steps of R143, or none when validation fails. The windows
of the platform must not overlap, and the host must have read `STATUS` since its last command (R196). That the fill is one
step is the model's own choice (log entry 18). -/
def Obligations.HostCallReturnsComputeCRC : Prop :=
  ∀ (s : State) (input : List Byte) (operands before after : List (Reg × Word)) (cmd : Word) (width : Int)
    (init poly : Nat) (st en : Int) (evs : List Event),
    s.windowsApart → s.eng.phase = .idle → s.eng.bufHeld = false →
    hostPlan s.cfg input width init poly st en = .transactions input operands cmd →
    (before ++ after).Perm operands →
    evs = callEvents s.left.length s.eng.base input before after cmd ++
      List.replicate (if validate s.cfg.minRange width st en input.length = none then 9 * (en - st + 1).toNat + 1 else 0)
        (.engine s.left.length) →
    ∃ t e, Host.Core.run Sys2Proof.core evs.length (s.setSched evs) = .next t ∧
      t.engines[s.left.length]? = some e ∧ e.phase = .idle ∧
      hostReturn s.cfg width.toNat e.status e.result = some (computeCRC s.cfg input width init poly st en)

/-- What the host does with a call (R121, R122): an input longer than `2^31 - 1` bytes is refused; a width or an index
without a register encoding always fails validation and the host reports that error; every other call becomes the writes of
R121, `CMD` last. -/
def Obligations.HostPlanFollowsItsOperands : Prop :=
  ∀ (cfg : Config) (input : List Byte) (width : Int) (init poly : Nat) (st en : Int),
    (0x7FFFFFFF < input.length → hostPlan cfg input width init poly st en = .refused .inputTooLong) ∧
    (input.length ≤ 0x7FFFFFFF →
      ¬(0 ≤ width ∧ width < 2 ^ 32 ∧ -(2 ^ 31) ≤ st ∧ st < 2 ^ 31 ∧ -(2 ^ 31) ≤ en ∧ en < 2 ^ 31) →
      ∃ r, validate cfg.minRange width st en input.length = some r ∧
        hostPlan cfg input width init poly st en = .report (errorReport cfg r)) ∧
    (input.length ≤ 0x7FFFFFFF → 0 ≤ width → width < 2 ^ 32 → -(2 ^ 31) ≤ st → st < 2 ^ 31 → -(2 ^ 31) ≤ en →
      en < 2 ^ 31 →
      ∃ ws cmd, hostPlan cfg input width init poly st en = .transactions input ws cmd ∧
        (cmd.toNat : Int) = width ∧ ws.map Prod.fst = [.len, .init, .poly, .start, .end_] ∧
        (∀ p ∈ ws, (p.1 = .len → p.2.toNat = input.length) ∧ (p.1 = .init → p.2.toNat = init % 2 ^ 32) ∧
          (p.1 = .poly → p.2.toNat = poly % 2 ^ 32) ∧ (p.1 = .start → p.2.toInt = st) ∧
          (p.1 = .end_ → p.2.toInt = en)))

/-- The rendering of a result (R144): exactly `w/4` characters, character `k` the lower-case digit of the bits `w-1-4k` to
`w-4-4k`. -/
def Obligations.FormatHexHasItsDigits : Prop :=
  ∀ (w : Nat), w = 8 ∨ w = 16 ∨ w = 32 → ∀ v : BitVec w,
    (hexDigits w v).length = w / 4 ∧
    (∀ k, k < w / 4 → (hexDigits w v)[k]? = hexTable[(v.toNat / 2 ^ (w - 4 - 4 * k)) % 16]?) ∧
    formatHex w v = String.ofList (hexDigits w v) ∧
    hexTable = ['0', '1', '2', '3', '4', '5', '6', '7', '8', '9', 'a', 'b', 'c', 'd', 'e', 'f']

/-- What the host returns for each final `STATUS`, under every `MSG_OUT_OF_BOUNDS` (R8, R123, R162). -/
def Obligations.HostReturnsTheResultOrTheMessage : Prop :=
  ∀ (cfg : Config) (w : Nat) (v : Word),
    hostReturn cfg w 0x02 v = some (.ok (formatHex w (v.setWidth w))) ∧
    hostReturn cfg w 0x16 v = some (.error
      { kind := .invalidRange, reason := .endBeforeStart, text := "end index must not precede start index" }) ∧
    hostReturn cfg w 0x26 v = some (.error
      { kind := .invalidRange, reason := .spanTooShort, text := "length of data to compute CRC over must be greater than 0" }) ∧
    hostReturn cfg w 0x4A v = some (.error
      { kind := .unsupportedWidth, reason := .badWidth, text := "CRC size must be 8, 16, or 32 bits" }) ∧
    hostReturn cfg w 0x36 v = some (.error
      { kind := .invalidRange, reason := .outOfBounds, text := cfg.msgOutOfBounds }) ∧
    hostReturn cfg w 0x01 v = none ∧ hostReturn cfg w 0x00 v = none

/-- How the host maps the option set of a call onto the registers (R121): `"Bits"` is one of the strings "8", "16" and "32" and
no other; a call whose input and indices fit becomes the fill of `BUF` and the writes of `LEN`, `INIT`, `POLY`, `START` and
`END`, and the decimal value of `"Bits"` goes to `CMD`, after all of them in whatever order they are made. -/
def Obligations.HostMapsItsOptionsOntoTheRegisters : Prop :=
  (∀ (t : String) (b : BitsOption), bitsOption t = some b ↔ t = b.text) ∧
  BitsOption.text .bits8 = "8" ∧ BitsOption.text .bits16 = "16" ∧ BitsOption.text .bits32 = "32" ∧
  ∀ (cfg : Config) (input : List Byte) (o : CallOptions), input.length ≤ 0x7FFFFFFF →
    -(2 ^ 31) ≤ o.startIndex → o.startIndex < 2 ^ 31 → -(2 ^ 31) ≤ o.endIndex → o.endIndex < 2 ^ 31 →
    ∃ cmd, optionsPlan cfg input o = .transactions input
        [(.len, BitVec.ofNat 32 input.length), (.init, BitVec.ofNat 32 o.initialValue),
          (.poly, BitVec.ofNat 32 o.polynomial), (.start, BitVec.ofInt 32 o.startIndex),
          (.end_, BitVec.ofInt 32 o.endIndex)] cmd ∧
      (o.bits = .bits8 → cmd = 8) ∧ (o.bits = .bits16 → cmd = 16) ∧ (o.bits = .bits32 → cmd = 32) ∧
      ∀ (k base : Nat) (before after : List (Reg × Word)),
        (callEvents k base input before after cmd).getLast? = some (.bus (writeAccess base .cmd cmd))

/-- The time in which `BUF` may not be written runs from the accepting write of `CMD` until a read of `STATUS` returns
`BUSY = 0` (R196): every command accepted while idle opens it, whether or not it passes validation, and a step closes it only
if it is such a read of that instance's `STATUS`, or a reset of that instance, which closes it always (the model's own reading,
log entry 12). -/
def Obligations.BufferWindowRunsFromTheCommandToTheStatusRead : Prop :=
  (∀ (s t : State) (v : Word), s.eng.phase = .idle → exec (hostWriteInstr .cmd v) s = .next t → t.eng.bufHeld = true) ∧
  (∀ (s t : State) (k : Nat) (e e' : Engine), step s = .next t → s.engines[k]? = some e → t.engines[k]? = some e' →
    e.bufHeld = true → e'.bufHeld = false →
    (∃ a rest, s.sched = .bus a :: rest ∧ a.write = false ∧ a.addr = e.base + 0x18 ∧ statusBusy e.status = false ∧
      t.lastRead = some e.status) ∨
    ∃ rest, s.sched = .reset k :: rest) ∧
  (∀ (s t : State) (k : Nat) (e' : Engine) (rest : List Event), s.sched = .reset k :: rest → step s = .next t →
    t.engines[k]? = some e' → e'.bufHeld = false)
end

