-- ==== Sys2Proof/Laws/Decode.lean ====
section
/-! SUPPORT. The fields of an assembled word, and the words an instruction decodes from (R70, R71, R78). -/

namespace Sys2Proof

/-- The bits of an assembled transaction (R70). -/
theorem hbusWord_getLsbD (rw : Bool) (off : BitVec 5) (v : Word) (j : Nat) :
    (hbusWord rw off v).getLsbD j =
      if j < 32 then v.getLsbD j else if j < 37 then off.getLsbD (j - 32) else (decide (j = 37) && rw) := by
  change (BitVec.ofBool rw ++ (off ++ v) : BitVec (1 + (5 + 32))).getLsbD j = _
  simp only [BitVec.getLsbD_append]
  by_cases h : j < 32
  · have h' : j < 5 + 32 := by omega
    simp [h, h']
  · by_cases h2 : j < 37
    · have h' : j < 5 + 32 := by omega
      simp [h, h']
    · have h' : ¬j < 5 + 32 := by omega
      by_cases h3 : j = 37
      · subst h3; cases rw <;> rfl
      · have h4 : 1 ≤ j - (5 + 32) := by omega
        simp only [h, h', h3, if_false, decide_false, Bool.false_and]
        exact BitVec.getLsbD_of_ge _ _ h4

/-- Two transactions with the same three fields are the same word. -/
theorem hbusWord_fields (w : BitVec 38) : hbusWord (hbusRw w) (hbusOff w) (hbusData w) = w := by
  apply BitVec.eq_of_getLsbD_eq
  intro j hj
  rw [hbusWord_getLsbD]
  unfold hbusRw hbusOff hbusData
  by_cases h : j < 32
  · simp [h]
  · by_cases h2 : j < 37
    · have h5 : j - 32 < 5 := by omega
      have h6 : 32 + (j - 32) = j := by omega
      simp [h, h2, h5, h6]
    · have h3 : j = 37 := by omega
      subst h3; simp

@[simp] theorem hbusRw_hbusWord (rw : Bool) (off : BitVec 5) (v : Word) : hbusRw (hbusWord rw off v) = rw := by
  rw [hbusRw, hbusWord_getLsbD]; rfl

@[simp] theorem hbusOff_hbusWord (rw : Bool) (off : BitVec 5) (v : Word) : hbusOff (hbusWord rw off v) = off := by
  apply BitVec.eq_of_getLsbD_eq
  intro j hj
  have h1 : ¬32 + j < 32 := by omega
  have h2 : 32 + j < 37 := by omega
  rw [hbusOff, BitVec.getLsbD_extractLsb', hbusWord_getLsbD, if_neg h1, if_pos h2]
  simp [hj]

@[simp] theorem hbusData_hbusWord (rw : Bool) (off : BitVec 5) (v : Word) : hbusData (hbusWord rw off v) = v := by
  apply BitVec.eq_of_getLsbD_eq
  intro j hj
  simp [hbusData, hbusWord_getLsbD, hj]

/-- The mask of a row that takes any `DATA` keeps `RW` and `OFF` and drops `DATA` (R78). -/
theorem and_rowMask (w : BitVec 38) : w &&& 0x3F00000000 = hbusWord (hbusRw w) (hbusOff w) 0 := by
  have hm : ∀ j < 38, (0x3F00000000 : BitVec 38).getLsbD j = decide (32 ≤ j) := by decide
  apply BitVec.eq_of_getLsbD_eq
  intro j hj
  rw [BitVec.getLsbD_and, hm j hj, ← congrArg (·.getLsbD j) (hbusWord_fields w)]
  simp only [hbusWord_getLsbD]
  by_cases h : j < 32
  · simp [h]
  · simp [h, Nat.le_of_not_lt h]

/-- A register's offset is a multiple of 4, and its code is the rest of it (R71). -/
@[simp] theorem Reg.off_low (r : Reg) : r.off.extractLsb' 0 2 = 0#2 := by cases r <;> rfl

@[simp] theorem regOfCode_off (r : Reg) : regOfCode (r.off.extractLsb' 2 3) = r := by cases r <;> rfl

/-- An aligned offset is some register's (R71). -/
theorem off_of_aligned (off : BitVec 5) (h : off.extractLsb' 0 2 = 0#2) :
    (regOfCode (off.extractLsb' 2 3)).off = off := by
  revert off
  decide

/-- What a transaction at a register's offset decodes to (R78). -/
theorem decodeHbus_hbusWord (rw : Bool) (r : Reg) (v : Word) :
    decodeHbus (hbusWord rw r.off v) = .instr (if rw then hostWriteInstr r v else hostReadInstr r) := by
  simp [decodeHbus]

/-- Every aligned word is a transaction on some register (R71, R78). -/
theorem decodeHbus_aligned (w : BitVec 38) (h : (hbusOff w).extractLsb' 0 2 = 0#2) :
    ∃ r : Reg, w = hbusWord (hbusRw w) r.off (hbusData w) :=
  ⟨regOfCode ((hbusOff w).extractLsb' 2 3), by rw [off_of_aligned _ h]; exact (hbusWord_fields w).symm⟩

/-- A word with `OFF[1:0] != 00` is refused (R79). -/
theorem decodeHbus_misaligned (w : BitVec 38) (h : (hbusOff w).extractLsb' 0 2 ≠ 0#2) :
    decodeHbus w = .misaligned := by
  simp [decodeHbus, h]

/-- A transaction that decodes is at some register's offset, and is that register's write or read (R71, R78). -/
theorem decodeHbus_instr {w : BitVec 38} {i : Instr} (h : decodeHbus w = .instr i) :
    ∃ r : Reg, hbusOff w = r.off ∧ i = if hbusRw w then hostWriteInstr r (hbusData w) else hostReadInstr r := by
  by_cases ha : (hbusOff w).extractLsb' 0 2 = 0#2
  · obtain ⟨r, hr⟩ := decodeHbus_aligned w ha
    have hd := decodeHbus_hbusWord (hbusRw w) r (hbusData w)
    rw [← hr, h] at hd
    exact ⟨r, by rw [hr, hbusOff_hbusWord], Decoded.instr.inj hd⟩
  · rw [decodeHbus_misaligned w ha] at h; cases h

/-- The three entry points and the generic command, by width (R78). -/
theorem cmdWrite_cases (v : Word) :
    (v = 8#32 ∧ cmdWrite v = .crc8) ∨ (v = 16#32 ∧ cmdWrite v = .crc16) ∨ (v = 32#32 ∧ cmdWrite v = .crc32) ∨
      (isEntryWidth v = false ∧ cmdWrite v = .wrCmd v) := by
  unfold cmdWrite isEntryWidth
  by_cases h8 : v = 8#32
  · simp [h8]
  · by_cases h16 : v = 16#32
    · simp [h16]
    · by_cases h32 : v = 32#32
      · simp [h32]
      · simp [h8, h16, h32]

end Sys2Proof
end

