-- ==== Sys2Proof/Laws/Memory.lean ====
section
/-! SUPPORT. The laws of the input buffer: a read after a write, the canonical form, and the bytes of a filled buffer. -/

namespace Sys2Proof.Machine

theorem Memory.read_write_same (m : Memory) (a : Nat) (v : Byte) : (m.write a v).read a = some v := by
  induction m with
  | nil => simp [Memory.write, Memory.read]
  | cons c m ih =>
    obtain ⟨k, b⟩ := c
    unfold Memory.write
    split
    · simp [Memory.read]
    · split
      · next h => simp [Memory.read, h]
      · next h => simp [Memory.read, Ne.symm h, ih]

theorem Memory.read_write_other (m : Memory) {a a' : Nat} (v : Byte) (h : a' ≠ a) :
    (m.write a v).read a' = m.read a' := by
  induction m with
  | nil => simp [Memory.write, Memory.read, Ne.symm h]
  | cons c m ih =>
    obtain ⟨k, b⟩ := c
    unfold Memory.write
    split
    · simp [Memory.read, Ne.symm h]
    · split
      · next hk => subst hk; simp [Memory.read, Ne.symm h]
      · simp [Memory.read, ih]

theorem Memory.wfFrom_write (m : Memory) {k a : Nat} (v : Byte) (hm : m.wfFrom k = true) (ha : k ≤ a) :
    (m.write a v).wfFrom k = true := by
  induction m generalizing k with
  | nil => simpa [Memory.write, Memory.wfFrom] using ha
  | cons c m ih =>
    obtain ⟨j, b⟩ := c
    simp only [Memory.wfFrom, Bool.and_eq_true, decide_eq_true_eq] at hm
    unfold Memory.write
    split
    · next h => simp [Memory.wfFrom, ha, hm.2]; omega
    · split
      · simp [Memory.wfFrom, hm]
      · next h h' => simp [Memory.wfFrom, hm.1, ih hm.2 (by omega)]

/-- A write keeps the canonical form. -/
theorem Memory.write_wf (m : Memory) (a : Nat) (v : Byte) (h : m.wf = true) : (m.write a v).wf = true :=
  m.wfFrom_write v h (Nat.zero_le a)

theorem Memory.wfFrom_ofListFrom (bs : List Byte) (k j : Nat) (h : j ≤ k) :
    (Memory.ofListFrom k bs).wfFrom j = true := by
  induction bs generalizing k j with
  | nil => rfl
  | cons b bs ih => simp [Memory.ofListFrom, Memory.wfFrom, h, ih]

/-- A filled buffer is in its canonical form. -/
theorem Memory.ofList_wf (bs : List Byte) : (Memory.ofList bs).wf = true :=
  Memory.wfFrom_ofListFrom bs 0 0 le_rfl

theorem Memory.read_ofListFrom (bs : List Byte) (k a : Nat) :
    (Memory.ofListFrom k bs).read a = if k ≤ a then bs[a - k]? else none := by
  induction bs generalizing k with
  | nil => simp [Memory.ofListFrom, Memory.read]
  | cons b bs ih =>
    rw [Memory.ofListFrom, Memory.read]
    split
    · next h => simp [h]
    · next h =>
      rw [ih]
      by_cases h' : k ≤ a
      · have hs : a - k = (a - (k + 1)) + 1 := by omega
        have h1 : k + 1 ≤ a := by omega
        rw [if_pos h1, if_pos h', hs, List.getElem?_cons_succ]
      · have h1 : ¬k + 1 ≤ a := by omega
        rw [if_neg h1, if_neg h']

/-- A filled buffer holds exactly the bytes it was filled with. -/
theorem Memory.read_ofList (bs : List Byte) (a : Nat) : (Memory.ofList bs).read a = bs[a]? := by
  simp [Memory.ofList, Memory.read_ofListFrom]

/-- Nothing is listed after reset. -/
theorem Memory.wf_nil : Memory.wf [] = true := rfl

end Sys2Proof.Machine
end

