-- ==== Sys2Proof/Laws/State.lean ====
section
/-! SUPPORT. The fields of every update of the state, one lemma for each field of each update. -/

namespace Sys2Proof.Machine

section StateUpdates
variable (s : State) (e : Engine) (v : Word) (l : List Event)

@[simp] theorem State.setEng_cfg : (s.setEng e).cfg = s.cfg := rfl
@[simp] theorem State.setEng_left : (s.setEng e).left = s.left := rfl
@[simp] theorem State.setEng_eng : (s.setEng e).eng = e := rfl
@[simp] theorem State.setEng_right : (s.setEng e).right = s.right := rfl
@[simp] theorem State.setEng_sched : (s.setEng e).sched = s.sched := rfl
@[simp] theorem State.setEng_lastRead : (s.setEng e).lastRead = s.lastRead := rfl
@[simp] theorem State.setEng_eng_self : s.setEng s.eng = s := rfl
@[simp] theorem State.setEng_setEng (e' : Engine) : (s.setEng e).setEng e' = s.setEng e' := rfl

@[simp] theorem State.respond_cfg : (s.respond v).cfg = s.cfg := rfl
@[simp] theorem State.respond_left : (s.respond v).left = s.left := rfl
@[simp] theorem State.respond_eng : (s.respond v).eng = s.eng := rfl
@[simp] theorem State.respond_right : (s.respond v).right = s.right := rfl
@[simp] theorem State.respond_sched : (s.respond v).sched = s.sched := rfl
@[simp] theorem State.respond_lastRead : (s.respond v).lastRead = some v := rfl
@[simp] theorem State.respond_engines : (s.respond v).engines = s.engines := rfl

@[simp] theorem State.setSched_cfg : (s.setSched l).cfg = s.cfg := rfl
@[simp] theorem State.setSched_left : (s.setSched l).left = s.left := rfl
@[simp] theorem State.setSched_eng : (s.setSched l).eng = s.eng := rfl
@[simp] theorem State.setSched_right : (s.setSched l).right = s.right := rfl
@[simp] theorem State.setSched_sched : (s.setSched l).sched = l := rfl
@[simp] theorem State.setSched_lastRead : (s.setSched l).lastRead = s.lastRead := rfl
@[simp] theorem State.setSched_engines : (s.setSched l).engines = s.engines := rfl

@[simp] theorem State.setSched_setSched (l' : List Event) : (s.setSched l).setSched l' = s.setSched l' := rfl
@[simp] theorem State.setSched_sched_self : s.setSched s.sched = s := rfl

/-- Replacing the selected instance replaces the element of its number in the list of instances. -/
theorem State.setEng_engines : (s.setEng e).engines = s.engines.set s.left.length e := by
  simp [State.engines]

@[simp] theorem State.engines_length_setEng : (s.setEng e).engines.length = s.engines.length := by
  simp [State.setEng_engines]

/-- The selected instance stands at its number. -/
theorem State.engines_getElem_selected : s.engines[s.left.length]? = some s.eng := by
  simp [State.engines]

end StateUpdates

section EngineUpdates
variable (e : Engine) (v : Word) (r : Reason) (x : WSel)

@[simp] theorem Engine.raise_base : (e.raise r).base = e.base := rfl
@[simp] theorem Engine.raise_cmd : (e.raise r).cmd = e.cmd := rfl
@[simp] theorem Engine.raise_init : (e.raise r).init = e.init := rfl
@[simp] theorem Engine.raise_poly : (e.raise r).poly = e.poly := rfl
@[simp] theorem Engine.raise_start : (e.raise r).start = e.start := rfl
@[simp] theorem Engine.raise_end : (e.raise r).end_ = e.end_ := rfl
@[simp] theorem Engine.raise_len : (e.raise r).len = e.len := rfl
@[simp] theorem Engine.raise_status : (e.raise r).status = statusError r := rfl
@[simp] theorem Engine.raise_result : (e.raise r).result = e.result := rfl
@[simp] theorem Engine.raise_phase : (e.raise r).phase = e.phase := rfl
@[simp] theorem Engine.raise_wsel : (e.raise r).wsel = e.wsel := rfl
@[simp] theorem Engine.raise_crc : (e.raise r).crc = e.crc := rfl
@[simp] theorem Engine.raise_idx : (e.raise r).idx = e.idx := rfl
@[simp] theorem Engine.raise_bit : (e.raise r).bit = e.bit := rfl
@[simp] theorem Engine.raise_buf : (e.raise r).buf = e.buf := rfl
@[simp] theorem Engine.raise_bufHeld : (e.raise r).bufHeld = e.bufHeld := rfl

@[simp] theorem Engine.clearForCommand_base : (e.clearForCommand v).base = e.base := rfl
@[simp] theorem Engine.clearForCommand_cmd : (e.clearForCommand v).cmd = v := rfl
@[simp] theorem Engine.clearForCommand_init : (e.clearForCommand v).init = e.init := rfl
@[simp] theorem Engine.clearForCommand_poly : (e.clearForCommand v).poly = e.poly := rfl
@[simp] theorem Engine.clearForCommand_start : (e.clearForCommand v).start = e.start := rfl
@[simp] theorem Engine.clearForCommand_end : (e.clearForCommand v).end_ = e.end_ := rfl
@[simp] theorem Engine.clearForCommand_len : (e.clearForCommand v).len = e.len := rfl
@[simp] theorem Engine.clearForCommand_status : (e.clearForCommand v).status = statusClear := rfl
@[simp] theorem Engine.clearForCommand_result : (e.clearForCommand v).result = 0 := rfl
@[simp] theorem Engine.clearForCommand_phase : (e.clearForCommand v).phase = e.phase := rfl
@[simp] theorem Engine.clearForCommand_wsel : (e.clearForCommand v).wsel = e.wsel := rfl
@[simp] theorem Engine.clearForCommand_crc : (e.clearForCommand v).crc = e.crc := rfl
@[simp] theorem Engine.clearForCommand_idx : (e.clearForCommand v).idx = e.idx := rfl
@[simp] theorem Engine.clearForCommand_bit : (e.clearForCommand v).bit = e.bit := rfl
@[simp] theorem Engine.clearForCommand_buf : (e.clearForCommand v).buf = e.buf := rfl
@[simp] theorem Engine.clearForCommand_bufHeld : (e.clearForCommand v).bufHeld = true := rfl

@[simp] theorem Engine.startCommand_base : (e.startCommand x).base = e.base := rfl
@[simp] theorem Engine.startCommand_cmd : (e.startCommand x).cmd = e.cmd := rfl
@[simp] theorem Engine.startCommand_init : (e.startCommand x).init = e.init := rfl
@[simp] theorem Engine.startCommand_poly : (e.startCommand x).poly = e.poly := rfl
@[simp] theorem Engine.startCommand_start : (e.startCommand x).start = e.start := rfl
@[simp] theorem Engine.startCommand_end : (e.startCommand x).end_ = e.end_ := rfl
@[simp] theorem Engine.startCommand_len : (e.startCommand x).len = e.len := rfl
@[simp] theorem Engine.startCommand_status : (e.startCommand x).status = statusInProgress := rfl
@[simp] theorem Engine.startCommand_result : (e.startCommand x).result = e.result := rfl
@[simp] theorem Engine.startCommand_phase : (e.startCommand x).phase = .xorByte := rfl
@[simp] theorem Engine.startCommand_wsel : (e.startCommand x).wsel = x := rfl
@[simp] theorem Engine.startCommand_crc : (e.startCommand x).crc = loadInit x e.init := rfl
@[simp] theorem Engine.startCommand_idx : (e.startCommand x).idx = e.start := rfl
@[simp] theorem Engine.startCommand_bit : (e.startCommand x).bit = 0 := rfl
@[simp] theorem Engine.startCommand_buf : (e.startCommand x).buf = e.buf := rfl
@[simp] theorem Engine.startCommand_bufHeld : (e.startCommand x).bufHeld = e.bufHeld := rfl

/-- Reset keeps the window address and `BUF` and sets the rest (R40, R190). -/
theorem Engine.doReset_eq : e.doReset = Engine.atReset e.base e.buf := rfl

end EngineUpdates

section AfterRead
variable (e : Engine) (r : Reg)

/-- A host read leaves everything of the instance but the window of R196 (R57). -/
theorem Engine.afterRead_eq : ∃ h, e.afterRead r = { e with bufHeld := h } := by
  cases r <;> exact ⟨_, rfl⟩

/-- A read of a register other than `STATUS` leaves the window of R196 too. -/
theorem Engine.afterRead_of_ne (h : r ≠ .status) : e.afterRead r = e := by
  cases r <;> first | rfl | contradiction

/-- A read of `STATUS` leaves the window of R196 open exactly while it is open and `BUSY = 1`. -/
theorem Engine.afterRead_ofStatus :
    e.afterRead .status = { e with bufHeld := e.bufHeld && statusBusy e.status } := rfl

@[simp] theorem Engine.afterRead_base : (e.afterRead r).base = e.base := by cases r <;> rfl
@[simp] theorem Engine.afterRead_cmd : (e.afterRead r).cmd = e.cmd := by cases r <;> rfl
@[simp] theorem Engine.afterRead_init : (e.afterRead r).init = e.init := by cases r <;> rfl
@[simp] theorem Engine.afterRead_poly : (e.afterRead r).poly = e.poly := by cases r <;> rfl
@[simp] theorem Engine.afterRead_start : (e.afterRead r).start = e.start := by cases r <;> rfl
@[simp] theorem Engine.afterRead_end : (e.afterRead r).end_ = e.end_ := by cases r <;> rfl
@[simp] theorem Engine.afterRead_len : (e.afterRead r).len = e.len := by cases r <;> rfl
@[simp] theorem Engine.afterRead_status : (e.afterRead r).status = e.status := by cases r <;> rfl
@[simp] theorem Engine.afterRead_result : (e.afterRead r).result = e.result := by cases r <;> rfl
@[simp] theorem Engine.afterRead_phase : (e.afterRead r).phase = e.phase := by cases r <;> rfl
@[simp] theorem Engine.afterRead_wsel : (e.afterRead r).wsel = e.wsel := by cases r <;> rfl
@[simp] theorem Engine.afterRead_crc : (e.afterRead r).crc = e.crc := by cases r <;> rfl
@[simp] theorem Engine.afterRead_idx : (e.afterRead r).idx = e.idx := by cases r <;> rfl
@[simp] theorem Engine.afterRead_bit : (e.afterRead r).bit = e.bit := by cases r <;> rfl
@[simp] theorem Engine.afterRead_buf : (e.afterRead r).buf = e.buf := by cases r <;> rfl

/-- While the instance is busy no host read changes anything of it: the window of R196 stays open. -/
theorem Engine.afterRead_busy (h : statusBusy e.status = true) : e.afterRead r = e := by
  cases r <;> first | rfl | (simp only [Engine.afterRead, h, Bool.and_true])

end AfterRead

section Advance
variable (e : Engine)

/-- The sequencer writes `BIT`, `IDX` and `PHASE` and nothing else (R36, R136). -/
theorem Engine.advance_eq : ∃ b i p, e.advance = { e with bit := b, idx := i, phase := p } := by
  unfold Engine.advance
  split
  · exact ⟨_, _, _, rfl⟩
  · split <;> exact ⟨_, _, _, rfl⟩

@[simp] theorem Engine.advance_base : e.advance.base = e.base := by
  obtain ⟨b, i, p, h⟩ := e.advance_eq; rw [h]
@[simp] theorem Engine.advance_cmd : e.advance.cmd = e.cmd := by
  obtain ⟨b, i, p, h⟩ := e.advance_eq; rw [h]
@[simp] theorem Engine.advance_init : e.advance.init = e.init := by
  obtain ⟨b, i, p, h⟩ := e.advance_eq; rw [h]
@[simp] theorem Engine.advance_poly : e.advance.poly = e.poly := by
  obtain ⟨b, i, p, h⟩ := e.advance_eq; rw [h]
@[simp] theorem Engine.advance_start : e.advance.start = e.start := by
  obtain ⟨b, i, p, h⟩ := e.advance_eq; rw [h]
@[simp] theorem Engine.advance_end : e.advance.end_ = e.end_ := by
  obtain ⟨b, i, p, h⟩ := e.advance_eq; rw [h]
@[simp] theorem Engine.advance_len : e.advance.len = e.len := by
  obtain ⟨b, i, p, h⟩ := e.advance_eq; rw [h]
@[simp] theorem Engine.advance_status : e.advance.status = e.status := by
  obtain ⟨b, i, p, h⟩ := e.advance_eq; rw [h]
@[simp] theorem Engine.advance_result : e.advance.result = e.result := by
  obtain ⟨b, i, p, h⟩ := e.advance_eq; rw [h]
@[simp] theorem Engine.advance_wsel : e.advance.wsel = e.wsel := by
  obtain ⟨b, i, p, h⟩ := e.advance_eq; rw [h]
@[simp] theorem Engine.advance_crc : e.advance.crc = e.crc := by
  obtain ⟨b, i, p, h⟩ := e.advance_eq; rw [h]
@[simp] theorem Engine.advance_buf : e.advance.buf = e.buf := by
  obtain ⟨b, i, p, h⟩ := e.advance_eq; rw [h]
@[simp] theorem Engine.advance_bufHeld : e.advance.bufHeld = e.bufHeld := by
  obtain ⟨b, i, p, h⟩ := e.advance_eq; rw [h]

end Advance

end Sys2Proof.Machine
end

