-- ==== Sys2Proof/Laws/Ops.lean ====
section
/-! SUPPORT. For each shared operation, what it can do, said once. -/

namespace Sys2Proof.Machine

/-! ## The choice of an instance -/

/-- Splitting a list around its element number `k` is putting it together again. -/
theorem splitAround_eq {k : Nat} {l a b : List Engine} {x : Engine} (h : splitAround k l = some (a, x, b)) :
    l = a ++ x :: b ∧ a.length = k := by
  induction l generalizing k a with
  | nil => cases k <;> simp [splitAround] at h
  | cons e l ih =>
    cases k with
    | zero =>
      simp only [splitAround, Option.some.injEq, Prod.mk.injEq] at h
      obtain ⟨rfl, rfl, rfl⟩ := h
      exact ⟨rfl, rfl⟩
    | succ k =>
      simp only [splitAround] at h
      split at h
      · next a' x' b' h' =>
        simp only [Option.some.injEq, Prod.mk.injEq] at h
        obtain ⟨rfl, rfl, rfl⟩ := h
        obtain ⟨hl, hk⟩ := ih h'
        exact ⟨by rw [hl]; rfl, by simp [hk]⟩
      · cases h

/-- A list splits around every element it has. -/
theorem splitAround_of_getElem {k : Nat} {l : List Engine} {e : Engine} (h : l[k]? = some e) :
    ∃ a b, splitAround k l = some (a, e, b) := by
  induction l generalizing k with
  | nil => simp at h
  | cons x l ih =>
    cases k with
    | zero => simp only [List.getElem?_cons_zero, Option.some.injEq] at h; exact ⟨[], l, by rw [splitAround, h]⟩
    | succ k =>
      obtain ⟨a, b, hs⟩ := ih (by simpa using h)
      exact ⟨x :: a, b, by rw [splitAround, hs]⟩

/-- Selecting an instance changes no instance and nothing else. -/
theorem State.select_eq {s t : State} {k : Nat} (h : s.select k = some t) :
    t.engines = s.engines ∧ t.left.length = k ∧ s.engines[k]? = some t.eng ∧ t.cfg = s.cfg ∧ t.sched = s.sched ∧
      t.lastRead = s.lastRead := by
  unfold State.select at h
  split at h
  · next a x b hs =>
    obtain ⟨hl, hk⟩ := splitAround_eq hs
    cases h
    refine ⟨hl.symm, hk, ?_, rfl, rfl, rfl⟩
    rw [hl, ← hk]; simp
  · cases h

/-- An instance that the platform has can be selected. -/
theorem State.select_of_getElem {s : State} {k : Nat} {e : Engine} (h : s.engines[k]? = some e) :
    ∃ t, s.select k = some t ∧ t.eng = e := by
  obtain ⟨a, b, hs⟩ := splitAround_of_getElem h
  exact ⟨_, by rw [State.select, hs], rfl⟩

/-- An instance that the platform does not have cannot be selected. -/
theorem State.select_none {s : State} {k : Nat} (h : s.engines[k]? = none) : s.select k = none := by
  cases hs : s.select k with
  | none => rfl
  | some t => have := (State.select_eq hs).2.2.1; rw [h] at this; cases this

/-- Selecting depends on the list of instances only. -/
theorem State.select_setSched (s : State) (l : List Event) (k : Nat) :
    (s.setSched l).select k = (s.select k).map (·.setSched l) := by
  simp only [State.select, State.setSched_engines]
  split <;> rfl

/-- The window that a lookup finds holds the address, and is the first that does. -/
theorem windowIndex_some {l : List Engine} {addr k : Nat} (h : windowIndex l addr = some k) :
    ∃ e, l[k]? = some e ∧ e.inWindow addr = true ∧ ∀ j < k, ∀ e', l[j]? = some e' → e'.inWindow addr = false := by
  induction l generalizing k with
  | nil => simp [windowIndex] at h
  | cons e l ih =>
    unfold windowIndex at h
    split at h
    · next hw => cases h; exact ⟨e, rfl, hw, by simp⟩
    · next hw =>
      split at h
      · next k' hk =>
        cases h
        obtain ⟨e', he, hin, hfst⟩ := ih hk
        refine ⟨e', by simpa using he, hin, fun j hj x hx => ?_⟩
        cases j with
        | zero => simp only [List.getElem?_cons_zero, Option.some.injEq] at hx; rw [← hx]; simpa using hw
        | succ j => exact hfst j (by omega) x (by simpa using hx)
      · cases h

/-- A lookup finds nothing exactly when no window holds the address. -/
theorem windowIndex_none {l : List Engine} {addr : Nat} :
    windowIndex l addr = none ↔ ∀ e ∈ l, e.inWindow addr = false := by
  induction l with
  | nil => simp [windowIndex]
  | cons e l ih =>
    unfold windowIndex
    cases hw : e.inWindow addr
    · cases hk : windowIndex l addr <;> simp [hk, hw] at ih ⊢ <;> simpa using ih
    · simp [hw]

/-! ## Host transactions -/

/-- A host read answers with the register, and leaves the instance as `Engine.afterRead` says. -/
theorem hostRead_eq (r : Reg) (s : State) :
    hostRead r s = .next ((s.setEng (s.eng.afterRead r)).respond (s.eng.readReg r)) := rfl

/-- `BUF` may be written exactly when the instance is idle and the window of R196 is closed. -/
theorem Engine.bufClosed_false {e : Engine} : e.bufClosed = false ↔ e.phase = .idle ∧ e.bufHeld = false := by
  simp [Engine.bufClosed, Engine.busy]

/-- A host write is ignored while busy. -/
theorem hostWrite_busy {s : State} (r : Reg) (v : Word) (h : s.eng.phase ≠ .idle) : hostWrite r v s = .next s := by
  simp [hostWrite, Engine.busy, h]

/-- A host write while idle stores its value. -/
theorem hostWrite_idle {s : State} (r : Reg) (v : Word) (h : s.eng.phase = .idle) :
    hostWrite r v s = .next (s.setEng (s.eng.storeOperand r v)) := by
  simp [hostWrite, Engine.busy, h]

/-- Everything a host write can do. -/
theorem hostWrite_cases {r : Reg} {v : Word} {s t : State} (h : hostWrite r v s = .next t) :
    (s.eng.phase ≠ .idle ∧ t = s) ∨ (s.eng.phase = .idle ∧ t = s.setEng (s.eng.storeOperand r v)) := by
  by_cases hp : s.eng.phase = .idle
  · rw [hostWrite_idle r v hp] at h; cases h; exact .inr ⟨hp, rfl⟩
  · rw [hostWrite_busy r v hp] at h; cases h; exact .inl ⟨hp, rfl⟩

/-- A command is ignored while busy. -/
theorem command_busy {s : State} (v : Word) (h : s.eng.phase ≠ .idle) : command v s = .next s := by
  simp [command, Engine.busy, h]

/-- A command while idle is accepted. -/
theorem command_idle {s : State} (v : Word) (h : s.eng.phase = .idle) :
    command v s = .next (s.setEng (acceptCommand s.cfg v s.eng)) := by
  simp [command, Engine.busy, h]

/-- Everything a command can do. -/
theorem command_cases {v : Word} {s t : State} (h : command v s = .next t) :
    (s.eng.phase ≠ .idle ∧ t = s) ∨ (s.eng.phase = .idle ∧ t = s.setEng (acceptCommand s.cfg v s.eng)) := by
  by_cases hp : s.eng.phase = .idle
  · rw [command_idle v hp] at h; cases h; exact .inr ⟨hp, rfl⟩
  · rw [command_busy v hp] at h; cases h; exact .inl ⟨hp, rfl⟩

/-! ## Validation and the accepting step -/

/-- A width without a selector does not pass validation (R161). -/
theorem validate_width {p : MinRange} {width s e : Int} {len : Nat} (h : validate p width s e len = none) :
    ∃ x, wselOfWidth width = some x := by
  unfold validate at h
  cases hw : wselOfWidth width with
  | some x => exact ⟨x, rfl⟩
  | none =>
    simp only [hw, if_true] at h
    split at h
    · cases h
    · split at h <;> cases h

/-- Everything the accepting step can do: the error report, or the start of the command (R100). -/
theorem acceptCommand_cases (cfg : Config) (v : Word) (e : Engine) :
    (∃ r, validate cfg.minRange (opWidth v) (opStart e) (opEnd e) (opLen e) = some r ∧
      acceptCommand cfg v e = (e.clearForCommand v).raise r) ∨
    (∃ x, validate cfg.minRange (opWidth v) (opStart e) (opEnd e) (opLen e) = none ∧
      wselOfWidth (opWidth v) = some x ∧ acceptCommand cfg v e = (e.clearForCommand v).startCommand x) := by
  unfold acceptCommand
  cases hv : validate cfg.minRange (opWidth v) (opStart e) (opEnd e) (opLen e) with
  | some r => exact .inl ⟨r, rfl, rfl⟩
  | none =>
    obtain ⟨x, hx⟩ := validate_width hv
    exact .inr ⟨x, rfl, hx, by simp only [hx]⟩

/-- The accepting step when validation fails (R163). -/
theorem acceptCommand_error {cfg : Config} {v : Word} {e : Engine} {r : Reason}
    (h : validate cfg.minRange (opWidth v) (opStart e) (opEnd e) (opLen e) = some r) :
    acceptCommand cfg v e = (e.clearForCommand v).raise r := by
  simp only [acceptCommand, h]

/-- The accepting step when validation passes (R100). -/
theorem acceptCommand_start {cfg : Config} {v : Word} {e : Engine} {x : WSel}
    (h : validate cfg.minRange (opWidth v) (opStart e) (opEnd e) (opLen e) = none)
    (hx : wselOfWidth (opWidth v) = some x) : acceptCommand cfg v e = (e.clearForCommand v).startCommand x := by
  simp only [acceptCommand, h, hx]

/-- The selectors and their widths (R73). -/
theorem wselOfWidth_some {width : Int} {x : WSel} (h : wselOfWidth width = some x) :
    (width = 8 ∧ x = .w8) ∨ (width = 16 ∧ x = .w16) ∨ (width = 32 ∧ x = .w32) := by
  unfold wselOfWidth at h
  split at h
  · next hw => cases h; exact .inl ⟨hw, rfl⟩
  · split at h
    · next hw => cases h; exact .inr (.inl ⟨hw, rfl⟩)
    · split at h
      · next hw => cases h; exact .inr (.inr ⟨hw, rfl⟩)
      · cases h

/-! ## Engine steps -/

/-- The sequencer before the eighth reduction (R34). -/
theorem Engine.advance_bit {e : Engine} (h : e.bit.toNat < 7) : e.advance = { e with bit := e.bit + 1 } := by
  simp [Engine.advance, h]

/-- The sequencer at the eighth reduction of the last byte (R36). -/
theorem Engine.advance_finish {e : Engine} (h : ¬e.bit.toNat < 7) (he : (e.idx.toNat : Int) = opEnd e) :
    e.advance = { e with bit := 0, phase := .finish } := by
  simp [Engine.advance, h, atEnd, he]

/-- The sequencer at the eighth reduction of another byte (R36). -/
theorem Engine.advance_next {e : Engine} (h : ¬e.bit.toNat < 7) (he : (e.idx.toNat : Int) ≠ opEnd e) :
    e.advance = { e with bit := 0, idx := e.idx + 1, phase := .xorByte } := by
  simp [Engine.advance, h, atEnd, he]

/-- The sequencer does not look at `BUF`. -/
theorem Engine.advance_setBuf (e : Engine) (m : Memory) :
    Engine.advance { e with buf := m } = { e.advance with buf := m } := by
  by_cases h : e.bit.toNat < 7
  · rw [advance_bit h, advance_bit (e := { e with buf := m }) h]
  · by_cases he : (e.idx.toNat : Int) = opEnd e
    · rw [advance_finish h he, advance_finish (e := { e with buf := m }) h he]
    · rw [advance_next h he, advance_next (e := { e with buf := m }) h he]

/-- A reduction step always completes, with the reducer's value in `CRC` and the sequencer advanced (R136 to R138). -/
theorem reduceWith_eq (f : Word → Word → Word) (s : State) :
    reduceWith f s = .next (s.setEng { s.eng with crc := f s.eng.crc s.eng.poly }.advance) := rfl

end Sys2Proof.Machine
end

