-- ==== Sys2Proof/Laws/Exec.lean ====
section
/-! SUPPORT. What an instruction can do, said once for all of them. -/

namespace Sys2Proof.Machine

/-- What the accepting step leaves alone, and the `RESULT` it leaves (R100); it opens the window of R196. -/
theorem acceptCommand_frame (cfg : Config) (v : Word) (e : Engine) :
    (acceptCommand cfg v e).buf = e.buf ∧ (acceptCommand cfg v e).base = e.base ∧
      (acceptCommand cfg v e).result = 0 ∧ (acceptCommand cfg v e).bufHeld = true := by
  rcases acceptCommand_cases cfg v e with ⟨r, -, hr⟩ | ⟨x, -, -, hr⟩ <;> rw [hr] <;> exact ⟨rfl, rfl, rfl, rfl⟩

/-- What a stored operand leaves alone (R104 to R110). -/
theorem storeOperand_frame (r : Reg) (v : Word) (e : Engine) :
    (e.storeOperand r v).buf = e.buf ∧ (e.storeOperand r v).base = e.base ∧
      (e.storeOperand r v).status = e.status ∧ (e.storeOperand r v).result = e.result ∧
      (e.storeOperand r v).phase = e.phase ∧ (e.storeOperand r v).wsel = e.wsel ∧
      (e.storeOperand r v).bufHeld = e.bufHeld := by
  cases r <;> exact ⟨rfl, rfl, rfl, rfl, rfl, rfl, rfl⟩

/-- Everything an instruction can do, if it answers a next state: a command, a host write, a host read, or one of the five
engine steps with its effect. -/
theorem exec_cases {i : Instr} {s t : State} (h : exec i s = .next t) :
    (∃ v, exec i s = command v s ∧ ((∃ v, i = .wrCmd v) ∨ i = .crc8 ∨ i = .crc16 ∨ i = .crc32)) ∨
    (∃ r v, r ≠ .cmd ∧ exec i s = hostWrite r v s) ∨ (∃ r, exec i s = hostRead r s) ∨
    (i = .stepXorByte ∧ ∃ b, s.eng.buf.read s.eng.idx.toNat = some b ∧
      t = s.setEng { s.eng with crc := s.eng.crc ^^^ opByte b, bit := 0, phase := .reduce }) ∨
    (i = .stepReduce8 ∧ t = s.setEng { s.eng with crc := crc8Reducer s.eng.crc s.eng.poly }.advance) ∨
    (i = .stepReduce16 ∧ t = s.setEng { s.eng with crc := crc16Reducer s.eng.crc s.eng.poly }.advance) ∨
    (i = .stepReduce32 ∧ t = s.setEng { s.eng with crc := crc32Reducer s.eng.crc s.eng.poly }.advance) ∨
    (i = .stepFinish ∧ t = s.setEng { s.eng with
      result := finishValue s.cfg s.eng.wsel s.eng.crc, status := statusSuccess, phase := .idle }) := by
  cases i
  case stepXorByte =>
    have h : execStepXorByte s = .next t := h
    unfold execStepXorByte at h; split at h
    · next b hb => cases h; exact .inr (.inr (.inr (.inl ⟨rfl, b, hb, rfl⟩)))
    · cases h
  case stepReduce8 => cases h; simp
  case stepReduce16 => cases h; simp
  case stepReduce32 => cases h; simp
  case stepFinish => cases h; simp
  case wrCmd v => exact .inl ⟨v, rfl, by simp⟩
  case crc8 => exact .inl ⟨8, rfl, by simp⟩
  case crc16 => exact .inl ⟨16, rfl, by simp⟩
  case crc32 => exact .inl ⟨32, rfl, by simp⟩
  case wrInit v => exact .inr (.inl ⟨.init, v, by simp, rfl⟩)
  case wrPoly v => exact .inr (.inl ⟨.poly, v, by simp, rfl⟩)
  case wrStart v => exact .inr (.inl ⟨.start, v, by simp, rfl⟩)
  case wrEnd v => exact .inr (.inl ⟨.end_, v, by simp, rfl⟩)
  case wrLen v => exact .inr (.inl ⟨.len, v, by simp, rfl⟩)
  case wrStatus v => exact .inr (.inl ⟨.status, v, by simp, rfl⟩)
  case wrResult v => exact .inr (.inl ⟨.result, v, by simp, rfl⟩)
  case rdCmd => exact .inr (.inr (.inl ⟨.cmd, rfl⟩))
  case rdInit => exact .inr (.inr (.inl ⟨.init, rfl⟩))
  case rdPoly => exact .inr (.inr (.inl ⟨.poly, rfl⟩))
  case rdStart => exact .inr (.inr (.inl ⟨.start, rfl⟩))
  case rdEnd => exact .inr (.inr (.inl ⟨.end_, rfl⟩))
  case rdLen => exact .inr (.inr (.inl ⟨.len, rfl⟩))
  case rdStatus => exact .inr (.inr (.inl ⟨.status, rfl⟩))
  case rdResult => exact .inr (.inr (.inl ⟨.result, rfl⟩))

/-- A host transaction is a command, a host write or a host read, and always answers a next state (R171). -/
theorem exec_hostWrite (r : Reg) (v : Word) (s : State) (h : r ≠ .cmd) :
    exec (hostWriteInstr r v) s = hostWrite r v s := by
  cases r <;> first | rfl | contradiction

theorem exec_command (v : Word) (s : State) : exec (hostWriteInstr .cmd v) s = command v s := by
  show exec (cmdWrite v) s = command v s
  unfold cmdWrite
  split
  · next h => rw [h]; rfl
  · split
    · next h => rw [h]; rfl
    · split
      · next h => rw [h]; rfl
      · rfl

theorem exec_hostRead (r : Reg) (s : State) : exec (hostReadInstr r) s = hostRead r s := by
  cases r <;> rfl

end Sys2Proof.Machine
end

