-- ==== Sys2Proof/Laws/Reducer.lean ====
section
/-! SUPPORT. The reducers at their widths, and the masks (R73, R130 to R134, R140). -/

namespace Sys2Proof.Machine

/-- One more pass of the network, last. -/
theorem reduceTimes_succ {w : Nat} (n : Nat) (p c : BitVec w) :
    reduceTimes (n + 1) p c = polyXorNetwork (reduceTimes n p c) p := by
  induction n generalizing c with
  | zero => rfl
  | succ n ih => rw [reduceTimes, ih, reduceTimes]

/-- A width is 8, 16 or 32. -/
theorem WSel.width_bounds {x : WSel} {w : Nat} (h : x.width = some w) : 8 ≤ w ∧ w ≤ 32 := by
  cases x <;> cases h <;> omega

/-- A narrow value widened to a word and narrowed again. -/
theorem setWidth_word_setWidth {w : Nat} (h : w ≤ 32) (c : BitVec w) : (c.setWidth 32).setWidth w = c := by
  apply BitVec.eq_of_toNat_eq
  have hc := c.isLt
  have hw : 2 ^ w ≤ 2 ^ 32 := Nat.pow_le_pow_right (by omega) h
  simp only [BitVec.toNat_setWidth]
  rw [Nat.mod_eq_of_lt (a := c.toNat) (b := 2 ^ 32) (by omega), Nat.mod_eq_of_lt c.isLt]

/-- The mask of a width keeps the low bits (R10, R73). -/
theorem WSel.and_mask {x : WSel} {w : Nat} (h : x.width = some w) (v : Word) :
    v &&& x.mask = (v.setWidth w).setWidth 32 := by
  have hm : x.mask = maskOfWidth w := by simp [WSel.mask, h]
  rw [hm]
  apply BitVec.eq_of_toNat_eq
  cases x <;> cases h
  · rw [BitVec.toNat_and, show (maskOfWidth 8).toNat = 2 ^ 8 - 1 from rfl, Nat.and_two_pow_sub_one_eq_mod]; simp; omega
  · rw [BitVec.toNat_and, show (maskOfWidth 16).toNat = 2 ^ 16 - 1 from rfl, Nat.and_two_pow_sub_one_eq_mod]; simp; omega
  · rw [BitVec.toNat_and, show (maskOfWidth 32).toNat = 2 ^ 32 - 1 from rfl, Nat.and_two_pow_sub_one_eq_mod]; simp; omega

/-- A masked value is below `2^w`. -/
theorem WSel.and_mask_lt {x : WSel} {w : Nat} (h : x.width = some w) (v : Word) : (v &&& x.mask).toNat < 2 ^ w := by
  rw [WSel.and_mask h]
  have hw : 2 ^ w ≤ 2 ^ 32 := Nat.pow_le_pow_right (by omega) (WSel.width_bounds h).2
  have hv := (v.setWidth w).isLt
  rw [BitVec.toNat_setWidth, Nat.mod_eq_of_lt (by omega)]
  exact hv

/-- The reducer that a selector's `REDUCE` step uses (R73). -/
def WSel.reducer : WSel → Word → Word → Word
  | .w8 => crc8Reducer
  | .w16 => crc16Reducer
  | .w32 => crc32Reducer
  | .reserved => crc32Reducer

/-- On a value of its width, a reducer is the network at that width (R132 to R134). -/
theorem WSel.reducer_eq {x : WSel} {w : Nat} (h : x.width = some w) (c : BitVec w) (p : Word) :
    x.reducer (c.setWidth 32) p = (polyXorNetwork c (p.setWidth w)).setWidth 32 := by
  cases x <;> cases h
  · simp only [WSel.reducer, crc8Reducer, setWidth_word_setWidth (w := 8) (by omega)]
  · simp only [WSel.reducer, crc16Reducer, setWidth_word_setWidth (w := 16) (by omega)]
  · simp [WSel.reducer, crc32Reducer]

/-- What a reducer gives is below `2^w` (R31, R132 to R134). -/
theorem WSel.reducer_lt {x : WSel} {w : Nat} (h : x.width = some w) (c p : Word) : (x.reducer c p).toNat < 2 ^ w := by
  cases x <;> cases h
  · simp only [WSel.reducer, crc8Reducer, BitVec.toNat_setWidth]; omega
  · simp only [WSel.reducer, crc16Reducer, BitVec.toNat_setWidth]; omega
  · exact BitVec.isLt _

end Sys2Proof.Machine
end

