-- ==== Sys2Proof/Laws/Step.lean ====
section
/-! SUPPORT. What a step can be, said once: which instruction runs on which instance, or what an event without an
instruction does. -/

namespace Sys2Proof.Machine

/-! ## The selector -/

/-- The step selected in each phase (R75). -/
theorem decodeFsm_selector (e : Engine) :
    decodeFsm e.selector =
      match e.phase with
      | .idle => .noStep
      | .xorByte => .instr .stepXorByte
      | .reduce =>
        match e.wsel with
        | .w8 => .instr .stepReduce8
        | .w16 => .instr .stepReduce16
        | .w32 => .instr .stepReduce32
        | .reserved => .unreachableSelector
      | .finish => .instr .stepFinish := by
  unfold Engine.selector
  cases e.phase <;> cases e.wsel <;> rfl

/-- The codes of the selector read back (R73, R75). -/
@[simp] theorem phaseOfCode_code (p : Phase) : phaseOfCode p.code = p := by cases p <;> rfl

@[simp] theorem wselOfCode_code (x : WSel) : wselOfCode x.code = x := by cases x <;> rfl

/-! ## The step -/

/-- A step that answers a next state runs an instruction or is an event without one. -/
theorem step_cases {s t : State} (h : step s = .next t) :
    (∃ i u, fetch s = .run i u ∧ exec i u = .next t) ∨ fetch s = .quiet t := by
  unfold step at h
  split at h
  · next i u hf => exact .inl ⟨i, u, hf, h⟩
  · next u hf => cases h; exact .inr hf
  · cases h
  · cases h

theorem step_run {s u : State} {i : Instr} (h : fetch s = .run i u) : step s = exec i u := by
  simp only [step, h]

theorem step_quiet {s t : State} (h : fetch s = .quiet t) : step s = .next t := by
  simp only [step, h]

/-- What the turn of the engine agent can be, if it runs an instruction (R35). -/
theorem fetchEngine_run {s u : State} {i : Instr} (h : fetchEngine s = .run i u) :
    u = s ∧ decodeFsm s.eng.selector = .instr i := by
  unfold fetchEngine at h
  split at h
  · next hd => cases h; exact ⟨rfl, hd⟩
  all_goals cases h

/-- The turn of an idle engine agent changes nothing (R176). -/
theorem fetchEngine_quiet {s t : State} (h : fetchEngine s = .quiet t) : t = s ∧ s.eng.phase = .idle := by
  unfold fetchEngine at h
  split at h
  · cases h
  · next hd =>
    cases h
    refine ⟨rfl, ?_⟩
    rw [decodeFsm_selector] at hd
    cases hp : s.eng.phase with
    | idle => rfl
    | xorByte => rw [hp] at hd; cases hd
    | reduce => rw [hp] at hd; cases hw : s.eng.wsel <;> rw [hw] at hd <;> cases hd
    | finish => rw [hp] at hd; cases hd
  · cases h
  · cases h

/-- A transaction never decodes to a selector's outcomes. -/
theorem decodeHbus_cases (w : BitVec 38) : (∃ i, decodeHbus w = .instr i) ∨ decodeHbus w = .misaligned := by
  unfold decodeHbus
  split
  · exact .inl ⟨_, rfl⟩
  · exact .inr rfl

/-- A bus access that runs an instruction: which instance, which word (R58, R70). -/
theorem fetchBus_run {s u : State} {a : Access} {i : Instr} (h : fetchBus a s = .run i u) :
    ∃ k, windowIndex s.engines a.addr = some k ∧ s.select k = some u ∧
      decodeHbus (busWord u.eng.base a) = .instr i := by
  unfold fetchBus at h
  split at h
  · split at h
    · next k hk =>
      split at h
      · next t ht =>
        unfold fetchTransaction at h
        split at h
        · next hd => cases h; exact ⟨k, hk, ht, hd⟩
        all_goals cases h
      · cases h
    · cases h
  · cases h

/-- A bus access is never an event without an instruction. -/
theorem fetchBus_not_quiet {s t : State} {a : Access} : fetchBus a s ≠ .quiet t := by
  unfold fetchBus
  split
  · split
    · split
      · next u _ =>
        unfold fetchTransaction
        rcases decodeHbus_cases (busWord u.eng.base a) with ⟨i, hi⟩ | hi <;> simp [hi]
      · simp
    · simp
  · simp

/-- A change of `BUF` that is admitted: the instance is idle and the window of R196 is closed. -/
theorem fetchBufChange_quiet {n : Nat} {m : Memory} {s t : State} (h : fetchBufChange n m s = .quiet t) :
    s.eng.phase = .idle ∧ s.eng.bufHeld = false ∧ t = s.setEng { s.eng with buf := m } := by
  unfold fetchBufChange at h
  split at h
  · cases h
  · next hb =>
    split at h
    · cases h
      obtain ⟨hp, hh⟩ := Engine.bufClosed_false.1 (by simpa using hb)
      exact ⟨hp, hh, rfl⟩
    · cases h

theorem fetchBufChange_not_run {n : Nat} {m : Memory} {s u : State} {i : Instr} :
    fetchBufChange n m s ≠ .run i u := by
  unfold fetchBufChange
  split
  · simp
  · split <;> simp

/-- An instruction that a step runs: it runs on the platform of the step, with the acting instance selected and the event
taken off the list; and it is what that instance's selector says, or a host transaction's decoding. -/
theorem fetch_run {s u : State} {i : Instr} (h : fetch s = .run i u) :
    s.turnOf u.left.length s.sched.tail u ∧ s.actor = some u.left.length ∧
      (decodeFsm u.eng.selector = .instr i ∨ ∃ w, decodeHbus w = .instr i) := by
  unfold fetch at h
  cases hs : s.sched with
  | nil =>
    simp only [hs] at h
    obtain ⟨rfl, hd⟩ := fetchEngine_run h
    exact ⟨⟨rfl, rfl, by simp [hs], rfl, rfl⟩, by simp [State.actor, hs], .inl hd⟩
  | cons ev rest =>
    simp only [hs] at h
    cases ev with
    | bus a =>
      obtain ⟨k, hk, hsel, hd⟩ := fetchBus_run h
      obtain ⟨h1, rfl, -, h4, h5, h6⟩ := State.select_eq hsel
      exact ⟨⟨h1, rfl, h5, h4, h6⟩, by simpa [State.actor, hs] using hk, .inr ⟨_, hd⟩⟩
    | engine k =>
      simp only [fetchEvent] at h
      split at h
      · next t hsel =>
        obtain ⟨rfl, hd⟩ := fetchEngine_run h
        obtain ⟨h1, rfl, -, h4, h5, h6⟩ := State.select_eq hsel
        exact ⟨⟨h1, rfl, h5, h4, h6⟩, by simp [State.actor, hs], .inl hd⟩
      · cases h
    | reset k => simp only [fetchEvent] at h; split at h <;> cases h
    | bufWrite k a b =>
      simp only [fetchEvent] at h
      split at h
      · exact absurd h fetchBufChange_not_run
      · cases h
    | bufFill k bs =>
      simp only [fetchEvent] at h
      split at h
      · exact absurd h fetchBufChange_not_run
      · cases h

/-- The event of a step that runs an instruction: an engine's turn and its selector's step, or a bus access in the acting
instance's window and the host transaction of its word. -/
theorem fetch_run_event {s u : State} {i : Instr} (h : fetch s = .run i u) :
    ((s.sched = [] ∨ ∃ rest, s.sched = .engine u.left.length :: rest) ∧ decodeFsm u.eng.selector = .instr i) ∨
    ∃ a rest r, s.sched = .bus a :: rest ∧ a.addr = u.eng.base + r.off.toNat ∧
      i = if a.write then hostWriteInstr r a.data else hostReadInstr r := by
  unfold fetch at h
  cases hs : s.sched with
  | nil =>
    simp only [hs] at h
    obtain ⟨rfl, hd⟩ := fetchEngine_run h
    exact .inl ⟨.inl rfl, hd⟩
  | cons ev rest =>
    simp only [hs] at h
    cases ev with
    | bus a =>
      obtain ⟨k, hk, hsel, hd⟩ := fetchBus_run h
      obtain ⟨e, he, hin, -⟩ := windowIndex_some hk
      obtain ⟨-, -, hu, -, -, -⟩ := State.select_eq hsel
      obtain rfl : u.eng = e := Option.some.inj (hu.symm.trans he)
      obtain ⟨r, hoff, hi⟩ := decodeHbus_instr hd
      simp only [Engine.inWindow, decide_eq_true_eq] at hin
      rw [busWord, hbusOff_hbusWord] at hoff
      have hn := congrArg BitVec.toNat hoff
      rw [BitVec.toNat_ofNat] at hn
      refine .inr ⟨a, rest, r, rfl, by omega, ?_⟩
      simpa only [busWord, hbusRw_hbusWord, hbusData_hbusWord] using hi
    | engine k =>
      simp only [fetchEvent] at h
      split at h
      · next t hsel =>
        obtain ⟨rfl, hd⟩ := fetchEngine_run h
        obtain ⟨-, rfl, -⟩ := State.select_eq hsel
        exact .inl ⟨.inr ⟨rest, rfl⟩, hd⟩
      · cases h
    | reset k => simp only [fetchEvent] at h; split at h <;> cases h
    | bufWrite k a b =>
      simp only [fetchEvent] at h
      split at h
      · exact absurd h fetchBufChange_not_run
      · cases h
    | bufFill k bs =>
      simp only [fetchEvent] at h
      split at h
      · exact absurd h fetchBufChange_not_run
      · cases h

/-- A step without an instruction: the acting instance stays as it was, idle; or the event is its reset (R190); or, idle and with the
window of R196 closed, it gets another `BUF`, in canonical form if it was. -/
theorem fetch_quiet {s t : State} (h : fetch s = .quiet t) :
    ∃ u e, s.turnOf u.left.length s.sched.tail u ∧ s.actor = some u.left.length ∧ t = u.setEng e ∧
      (e = u.eng ∧ u.eng.phase = .idle ∨
        (e = u.eng.doReset ∧ s.sched = .reset u.left.length :: s.sched.tail) ∨
        (u.eng.phase = .idle ∧ u.eng.bufHeld = false) ∧ ∃ m, e = { u.eng with buf := m } ∧ (u.eng.buf.wf = true → m.wf = true)) := by
  unfold fetch at h
  cases hs : s.sched with
  | nil =>
    simp only [hs] at h
    obtain ⟨rfl, hp⟩ := fetchEngine_quiet h
    exact ⟨t, t.eng, ⟨rfl, rfl, by simp [hs], rfl, rfl⟩, by simp [State.actor, hs], rfl, .inl ⟨rfl, hp⟩⟩
  | cons ev rest =>
    simp only [hs] at h
    cases ev with
    | bus a => exact absurd h fetchBus_not_quiet
    | engine k =>
      simp only [fetchEvent] at h
      split at h
      · next u hsel =>
        obtain ⟨rfl, hp⟩ := fetchEngine_quiet h
        obtain ⟨h1, rfl, -, h4, h5, h6⟩ := State.select_eq hsel
        exact ⟨t, t.eng, ⟨h1, rfl, h5, h4, h6⟩, by simp [State.actor, hs], rfl, .inl ⟨rfl, hp⟩⟩
      · cases h
    | reset k =>
      simp only [fetchEvent] at h
      split at h
      · next u hsel =>
        cases h
        obtain ⟨h1, rfl, -, h4, h5, h6⟩ := State.select_eq hsel
        exact ⟨u, _, ⟨h1, rfl, h5, h4, h6⟩, by simp [State.actor, hs], rfl, .inr (.inl ⟨rfl, rfl⟩)⟩
      · cases h
    | bufWrite k a b =>
      simp only [fetchEvent] at h
      split at h
      · next u hsel =>
        obtain ⟨hp, hh, rfl⟩ := fetchBufChange_quiet h
        obtain ⟨h1, rfl, -, h4, h5, h6⟩ := State.select_eq hsel
        exact ⟨u, _, ⟨h1, rfl, h5, h4, h6⟩, by simp [State.actor, hs], rfl,
          .inr (.inr ⟨⟨hp, hh⟩, _, rfl, Memory.write_wf _ _ _⟩)⟩
      · cases h
    | bufFill k bs =>
      simp only [fetchEvent] at h
      split at h
      · next u hsel =>
        obtain ⟨hp, hh, rfl⟩ := fetchBufChange_quiet h
        obtain ⟨h1, rfl, -, h4, h5, h6⟩ := State.select_eq hsel
        exact ⟨u, _, ⟨h1, rfl, h5, h4, h6⟩, by simp [State.actor, hs], rfl,
          .inr (.inr ⟨⟨hp, hh⟩, _, rfl, fun _ => Memory.ofList_wf bs⟩)⟩
      · cases h

/-- The instances after a step that replaces the acting instance `u.eng` by `e'`: number `k` is that one, or as before. -/
theorem engines_after_turn {s t u : State} {e' e x : Engine} {k : Nat} (hu : u.engines = s.engines)
    (ht : t.engines = (u.setEng e').engines) (he : s.engines[k]? = some e) (hx : t.engines[k]? = some x) :
    (u.left.length = k ∧ u.eng = e ∧ x = e') ∨ x = e := by
  rw [ht, State.setEng_engines, hu] at hx
  by_cases hk : u.left.length = k
  · subst hk
    have hself := State.engines_getElem_selected u
    rw [hu] at hself
    rw [List.getElem?_set_self (List.getElem?_eq_some_iff.1 he).1] at hx
    exact .inl ⟨rfl, Option.some.inj (hself.symm.trans he), (Option.some.inj hx).symm⟩
  · rw [List.getElem?_set_ne hk] at hx
    exact .inr (Option.some.inj (hx.symm.trans he))

end Sys2Proof.Machine
end

