-- ==== Sys2Proof/Laws/Invariant.lean ====
section
/-! SUPPORT. The shared operations keep the invariant of an instance (R31 to R34, R38). -/

namespace Sys2Proof.Machine

/-- The step selected is `STEP_XOR_BYTE`, the `REDUCE` step of the selector, or `STEP_FINISH` (R75). -/
theorem selector_cases {e : Engine} {i : Instr} (h : decodeFsm e.selector = .instr i) :
    (e.phase = .xorByte ∧ i = .stepXorByte) ∨ (e.phase = .reduce ∧ e.wsel = .w8 ∧ i = .stepReduce8) ∨
    (e.phase = .reduce ∧ e.wsel = .w16 ∧ i = .stepReduce16) ∨ (e.phase = .reduce ∧ e.wsel = .w32 ∧ i = .stepReduce32) ∨
    (e.phase = .finish ∧ i = .stepFinish) := by
  rw [decodeFsm_selector] at h
  split at h
  · cases h
  · next hp => cases h; simp [hp]
  · next hp => split at h <;> cases h <;> simp_all
  · next hp => cases h; simp [hp]

/-- A range that passes validation (R161). -/
theorem validate_range {p : MinRange} {width s e : Int} {len : Nat} (h : validate p width s e len = none) :
    0 ≤ s ∧ s ≤ e ∧ e < len := by
  unfold validate at h
  split at h
  · cases h
  · split at h
    · cases h
    · split at h
      · cases h
      · split at h
        · cases h
        · omega

/-- A start index that is not negative is its register's unsigned value (R33, R77). -/
theorem start_toNat {e : Engine} (h : 0 ≤ opStart e) : opStart e = (e.start.toNat : Int) := by
  unfold opStart at h ⊢
  rw [BitVec.toInt_eq_toNat_cond] at h ⊢
  split
  · rfl
  · next hh => rw [if_neg hh] at h; have := e.start.isLt; omega

/-- The error report does not say `SPAN_TOO_SHORT` under `MIN_RANGE_LEN = 1` (R38, R161). -/
theorem spanTooShort_two {p : MinRange} {width s e : Int} {len : Nat}
    (h : validate p width s e len = some .spanTooShort) : p = .two := by
  unfold validate at h
  cases p
  · split at h
    · cases h
    · split at h
      · next h1 h2 => simp only [MinRange.toNat] at h2; omega
      · split at h
        · cases h
        · split at h <;> cases h
  · rfl

/-- The accepting step keeps the invariant of an idle instance (R100, R163). -/
theorem acceptCommand_inv {cfg : Config} {v : Word} {e : Engine} (hp : e.phase = .idle) (h : e.Inv cfg) :
    (acceptCommand cfg v e).Inv cfg := by
  rcases acceptCommand_cases cfg v e with ⟨r, hv, hr⟩ | ⟨x, hv, hx, hr⟩ <;> rw [hr]
  · have hb : statusBusy (statusError r) = false := by cases r <;> rfl
    constructor
    · show statusError r ∈ legalStatus; cases r <;> decide
    · simp [hb, hp]
    · intro hs
      have hrr : r = .spanTooShort := by
        revert hs
        simp only [Engine.raise_status]
        cases r <;> first | (intro _; rfl) | (intro h; exact absurd h (by decide))
      subst hrr
      exact spanTooShort_two hv
    · exact h.selector_legal
    · intro _; rfl
    · intro hs; revert hs; simp only [Engine.raise_status]; cases r <;> (intro h; exact absurd h (by decide))
    · intro hh; exact absurd hp hh
    · exact h.buf_wf
  · have hl := validate_range hv
    have hs0 := start_toNat hl.1
    constructor
    · show statusInProgress ∈ legalStatus; decide
    · show statusBusy statusInProgress = true ↔ Phase.xorByte ≠ .idle; decide
    · intro hs; exact absurd hs (show statusInProgress ≠ 0x26 by decide)
    · intro hh; change x = .reserved at hh; subst hh
      rcases wselOfWidth_some hx with h | h | h <;> cases h.2
    · intro _; rfl
    · intro hs; exact absurd hs (show statusInProgress ≠ 0x02 by decide)
    · intro _
      constructor
      · exact hx
      · exact hv
      · show opStart e ≤ (e.start.toNat : Int); omega
      · show (e.start.toNat : Int) ≤ opEnd e; omega
      · intro w hw; exact WSel.and_mask_lt hw _
      · intro _; rfl
      · intro hh; cases hh
      · rfl
      · rfl
    · exact h.buf_wf

/-- The sequencer's advance keeps the invariant of an instance that is reducing, for any new `CRC` of its width (R36). -/
theorem advance_inv {cfg : Config} {e : Engine} {c : Word} (hp : e.phase = .reduce) (h : e.Inv cfg)
    (hc : ∀ w, e.wsel.width = some w → c.toNat < 2 ^ w) : Engine.Inv cfg ({ e with crc := c }.advance) := by
  have hb := h.busy (by simp [hp])
  have hbusy : statusBusy e.status = true := h.busy_iff.2 (by simp [hp])
  have hge := hb.idx_ge
  have hle := hb.idx_le
  by_cases h7 : e.bit.toNat < 7
  · rw [Engine.advance_bit (e := { e with crc := c }) h7]
    refine ⟨h.status_legal, h.busy_iff, h.too_short, h.selector_legal, h.result_zero, h.result_lt,
      fun _ => ⟨hb.selector, hb.valid, hge, hle, hc, fun hh => absurd hp hh, fun hh => ?_, hb.result_zero, hb.held⟩, h.buf_wf⟩
    change e.phase = .finish at hh; rw [hp] at hh; cases hh
  · by_cases he : (e.idx.toNat : Int) = opEnd e
    · rw [Engine.advance_finish (e := { e with crc := c }) h7 he]
      refine ⟨h.status_legal, ?_, h.too_short, h.selector_legal, h.result_zero, h.result_lt,
        fun _ => ⟨hb.selector, hb.valid, hge, hle, hc, fun _ => rfl, fun _ => he, hb.result_zero, hb.held⟩, h.buf_wf⟩
      show statusBusy e.status = true ↔ Phase.finish ≠ .idle
      simp [hbusy]
    · rw [Engine.advance_next (e := { e with crc := c }) h7 he]
      have hi : ((e.idx + 1).toNat : Int) = e.idx.toNat + 1 := by
        have h1 : opEnd e ≤ 2 ^ 31 - 1 := by have := BitVec.toInt_lt (x := e.end_); unfold opEnd; omega
        rw [BitVec.toNat_add, show (1 : Word).toNat = 1 from rfl]; norm_num; omega
      refine ⟨h.status_legal, ?_, h.too_short, h.selector_legal, h.result_zero, h.result_lt,
        fun _ => ⟨hb.selector, hb.valid, ?_, ?_, hc, fun _ => rfl, fun hh => (nomatch hh), hb.result_zero, hb.held⟩, h.buf_wf⟩
      · show statusBusy e.status = true ↔ Phase.xorByte ≠ .idle
        simp [hbusy]
      · show opStart e ≤ ((e.idx + 1).toNat : Int); omega
      · show ((e.idx + 1).toNat : Int) ≤ opEnd e; omega

/-- Reset gives an instance that satisfies the invariant, if its `BUF` is in canonical form (R40, R190). -/
theorem doReset_inv {cfg : Config} {e : Engine} (h : e.buf.wf = true) : e.doReset.Inv cfg := by
  refine ⟨show (0 : Word) ∈ legalStatus by decide, ?_, ?_, ?_, fun _ => rfl, ?_, fun hh => absurd rfl hh, h⟩
  · show statusBusy 0 = true ↔ Phase.idle ≠ .idle; decide
  · intro hs; exact absurd hs (show ¬(0 : Word) = 0x26 by decide)
  · intro hs; cases hs
  · intro hs; exact absurd hs (show ¬(0 : Word) = 0x02 by decide)

/-- A step of the platform's own: selecting the selected instance changes nothing. -/
theorem select_self (s : State) : s.select s.left.length = some s := by
  have hsplit : ∀ (l r : List Engine) (e : Engine), splitAround l.length (l ++ e :: r) = some (l, e, r) := by
    intro l
    induction l with
    | nil => intros; rfl
    | cons x l ih => intro r e; rw [List.length_cons, List.cons_append, splitAround, ih]
  unfold State.select State.engines
  rw [hsplit]

end Sys2Proof.Machine
end

