-- ==== Sys2Proof/Laws/PerInstr.lean ====
section
/-! SUPPORT. One family of statements for every instruction as syntax: its encoding is a word of its row of the opcode
table, whatever its operand (R70, R78). -/

namespace Sys2Proof.Laws.InRow

/-- The encoding of the instruction is a word of its row. -/
def Statement (i : Instr) : Prop := i.row.covers (encode i) = true

theorem wrCmd (v : Word) : Statement (.wrCmd v) := by
  simp only [Statement, Instr.row, encode, Row.covers, and_rowMask, hbusRw_hbusWord, hbusOff_hbusWord]; decide
theorem crc8 : Statement .crc8 := by unfold Statement; decide
theorem crc16 : Statement .crc16 := by unfold Statement; decide
theorem crc32 : Statement .crc32 := by unfold Statement; decide
theorem wrInit (v : Word) : Statement (.wrInit v) := by
  simp only [Statement, Instr.row, encode, Row.covers, and_rowMask, hbusRw_hbusWord, hbusOff_hbusWord]; decide
theorem wrPoly (v : Word) : Statement (.wrPoly v) := by
  simp only [Statement, Instr.row, encode, Row.covers, and_rowMask, hbusRw_hbusWord, hbusOff_hbusWord]; decide
theorem wrStart (v : Word) : Statement (.wrStart v) := by
  simp only [Statement, Instr.row, encode, Row.covers, and_rowMask, hbusRw_hbusWord, hbusOff_hbusWord]; decide
theorem wrEnd (v : Word) : Statement (.wrEnd v) := by
  simp only [Statement, Instr.row, encode, Row.covers, and_rowMask, hbusRw_hbusWord, hbusOff_hbusWord]; decide
theorem wrLen (v : Word) : Statement (.wrLen v) := by
  simp only [Statement, Instr.row, encode, Row.covers, and_rowMask, hbusRw_hbusWord, hbusOff_hbusWord]; decide
theorem wrStatus (v : Word) : Statement (.wrStatus v) := by
  simp only [Statement, Instr.row, encode, Row.covers, and_rowMask, hbusRw_hbusWord, hbusOff_hbusWord]; decide
theorem wrResult (v : Word) : Statement (.wrResult v) := by
  simp only [Statement, Instr.row, encode, Row.covers, and_rowMask, hbusRw_hbusWord, hbusOff_hbusWord]; decide
theorem rdCmd : Statement .rdCmd := by unfold Statement; decide
theorem rdInit : Statement .rdInit := by unfold Statement; decide
theorem rdPoly : Statement .rdPoly := by unfold Statement; decide
theorem rdStart : Statement .rdStart := by unfold Statement; decide
theorem rdEnd : Statement .rdEnd := by unfold Statement; decide
theorem rdLen : Statement .rdLen := by unfold Statement; decide
theorem rdStatus : Statement .rdStatus := by unfold Statement; decide
theorem rdResult : Statement .rdResult := by unfold Statement; decide
theorem stepXorByte : Statement .stepXorByte := by unfold Statement; decide
theorem stepReduce8 : Statement .stepReduce8 := by unfold Statement; decide
theorem stepReduce16 : Statement .stepReduce16 := by unfold Statement; decide
theorem stepReduce32 : Statement .stepReduce32 := by unfold Statement; decide
theorem stepFinish : Statement .stepFinish := by unfold Statement; decide

end Sys2Proof.Laws.InRow
end

