-- ==== Sys2Proof/Laws/Run.lean ====
section
/-! SUPPORT. Runs of several steps, taken apart. -/

namespace Sys2Proof.Machine

/-- A run of any machine that goes on after its first step. -/
theorem coreRun_succ_of_next (M : Host.Core) (n : Nat) {s u : M.State} (h : M.step s = .next u) :
    M.run (n + 1) s = M.run n u := by
  rw [Host.Core.run.eq_2, h]

/-- A run of any machine that answers a next state took a first step that did. -/
theorem coreRun_succ_cases (M : Host.Core) (n : Nat) {s t : M.State} (h : M.run (n + 1) s = .next t) :
    ∃ u, M.step s = .next u ∧ M.run n u = .next t := by
  rw [Host.Core.run.eq_2] at h
  cases hs : M.step s with
  | next u => rw [hs] at h; exact ⟨u, rfl, h⟩
  | fault f => rw [hs] at h; cases h
  | refused r => rw [hs] at h; cases h

theorem run_zero (s : State) : Host.Core.run Sys2Proof.core 0 s = .next s := rfl

/-- A run that goes on after its first step. -/
theorem run_succ_of_next {s u : State} (n : Nat) (h : step s = .next u) :
    Host.Core.run Sys2Proof.core (n + 1) s = Host.Core.run Sys2Proof.core n u :=
  coreRun_succ_of_next Sys2Proof.core n h

/-- A run that answers a next state took a first step that did. -/
theorem run_succ_cases {s t : State} {n : Nat} (h : Host.Core.run Sys2Proof.core (n + 1) s = .next t) :
    ∃ u, step s = .next u ∧ Host.Core.run Sys2Proof.core n u = .next t :=
  coreRun_succ_cases Sys2Proof.core n h

/-- A run is a shorter run and then the rest of it. -/
theorem run_add_of_next {s u : State} (m n : Nat) (h : Host.Core.run Sys2Proof.core m s = .next u) :
    Host.Core.run Sys2Proof.core (m + n) s = Host.Core.run Sys2Proof.core n u := by
  induction m generalizing s with
  | zero => cases h; rw [Nat.zero_add]
  | succ m ih =>
    obtain ⟨v, hv, hr⟩ := run_succ_cases h
    rw [Nat.add_right_comm]
    exact (run_succ_of_next _ hv).trans (ih hr)

/-- A run that answers a next state, taken apart at any point. -/
theorem run_add_cases {s t : State} (m n : Nat) (h : Host.Core.run Sys2Proof.core (m + n) s = .next t) :
    ∃ u, Host.Core.run Sys2Proof.core m s = .next u ∧ Host.Core.run Sys2Proof.core n u = .next t := by
  induction m generalizing s with
  | zero => rw [Nat.zero_add] at h; exact ⟨s, rfl, h⟩
  | succ m ih =>
    rw [Nat.add_right_comm] at h
    obtain ⟨v, hv, hr⟩ := run_succ_cases h
    obtain ⟨u, hu, ht⟩ := ih hr
    exact ⟨u, (run_succ_of_next _ hv).trans hu, ht⟩

end Sys2Proof.Machine
end

