-- ==== Sys2Proof/Laws/Progress.lean ====
section
/-! SUPPORT. Where a command stands after a number of its engine steps (R36, R141 to R143). -/

namespace Sys2Proof.Machine

/-- The engine agent of an instance in state `e` has a step, and it gives `e'`. -/
def Engine.StepsTo (cfg : Config) (e e' : Engine) : Prop :=
  ∃ i, decodeFsm e.selector = .instr i ∧ ∀ u : State, u.eng = e → u.cfg = cfg → exec i u = .next (u.setEng e')

/-- The functional core on the operands of an instance (R142). -/
def Engine.coreOf (e : Engine) (w : Nat) (bs : List Byte) : BitVec w :=
  crcCore (e.init.setWidth w) (e.poly.setWidth w) bs

/-- `e` is an instance whose command started as `e0` and has taken `j` engine steps over the bytes `bs` at width `w`, the
last one, `STEP_FINISH`, not among them. -/
inductive CommandAt (e0 : Engine) (w : Nat) (bs : List Byte) : Nat → Engine → Prop
  /-- Before the byte number `q`. -/
  | byte (q : Nat) (hq : q < bs.length) : CommandAt e0 w bs (9 * q)
      { e0 with phase := .xorByte, crc := (e0.coreOf w (bs.take q)).setWidth 32, idx := e0.start + BitVec.ofNat 32 q,
                bit := 0 }
  /-- In the byte number `q`, after `r` reductions. -/
  | reduce (q r : Nat) (hq : q < bs.length) (hr : r < 8) : CommandAt e0 w bs (9 * q + r + 1)
      { e0 with phase := .reduce,
                crc := (reduceTimes r (e0.poly.setWidth w) (e0.coreOf w (bs.take q) ^^^ bs[q].setWidth w)).setWidth 32,
                idx := e0.start + BitVec.ofNat 32 q, bit := BitVec.ofNat 3 r }
  /-- After the last byte. -/
  | finish (i : Word) : CommandAt e0 w bs (9 * bs.length)
      { e0 with phase := .finish, crc := (e0.coreOf w bs).setWidth 32, idx := i, bit := 0 }

/-- What the start of a command gives (R100, R161): a width, a range that is not empty, and its bytes in `BUF`. -/
structure Started (e0 : Engine) (w : Nat) (bs : List Byte) : Prop where
  width : e0.wsel.width = some w
  start_nonneg : 0 ≤ opStart e0
  covers : e0.covers bs
  nonempty : 0 < bs.length

variable {cfg : Config} {e0 : Engine} {w : Nat} {bs : List Byte}

/-- A command in progress is busy. -/
theorem CommandAt.busy {j : Nat} {e : Engine} (h : CommandAt e0 w bs j e) : e.phase ≠ .idle := by cases h <;> simp

/-- The index of byte number `q` (R33). -/
theorem Started.idx (h : Started e0 w bs) {q : Nat} (hq : q < bs.length) :
    (e0.start + BitVec.ofNat 32 q).toNat = (opStart e0).toNat + q := by
  have h0 := h.start_nonneg
  have hl := h.covers.1
  have hlt : opEnd e0 < 2 ^ 31 := by have := BitVec.toInt_lt (x := e0.end_); unfold opEnd; omega
  have hs := start_toNat h0
  rw [BitVec.toNat_add, BitVec.toNat_ofNat, Nat.mod_eq_of_lt (a := q) (by omega), Nat.mod_eq_of_lt (by omega)]
  omega

/-- The core over one byte more (R141, R142). -/
theorem Engine.coreOf_succ {q : Nat} (hq : q < bs.length) :
    e0.coreOf w (bs.take (q + 1)) =
      reduceTimes 8 (e0.poly.setWidth w) (e0.coreOf w (bs.take q) ^^^ bs[q].setWidth w) := by
  unfold coreOf crcCore
  rw [List.take_succ_eq_append_getElem hq, List.foldl_append]
  rfl

/-- An accepted command has taken no step yet (R100, R140). -/
theorem commandAt_start {v : Word} {e : Engine} {x : WSel}
    (hv : validate cfg.minRange (opWidth v) (opStart e) (opEnd e) (opLen e) = none)
    (hx : wselOfWidth (opWidth v) = some x) (hw : x.width = some w) (hc : e.covers bs) :
    Started (acceptCommand cfg v e) w bs ∧ CommandAt (acceptCommand cfg v e) w bs 0 (acceptCommand cfg v e) ∧
      (acceptCommand cfg v e).init = e.init ∧ (acceptCommand cfg v e).poly = e.poly := by
  rw [acceptCommand_start hv hx]
  have hl := validate_range hv
  have hlen : 0 < bs.length := by have := hc.1; omega
  refine ⟨⟨hw, hl.1, hc, hlen⟩, ?_, rfl, rfl⟩
  have h0 := CommandAt.byte (e0 := (e.clearForCommand v).startCommand x) (w := w) (bs := bs) 0 hlen
  have h1 : e.start + BitVec.ofNat 32 0 = e.start := by simp
  have h2 : loadInit x e.init = (((e.clearForCommand v).startCommand x).coreOf w (bs.take 0)).setWidth 32 :=
    WSel.and_mask hw e.init
  rw [← h2] at h0
  change CommandAt _ w bs 0 { (e.clearForCommand v).startCommand x with
    phase := .xorByte, crc := loadInit x e.init, idx := e.start + BitVec.ofNat 32 0, bit := 0 } at h0
  rw [h1] at h0
  exact h0

/-- The instance takes the next step of its command (R135 to R138). -/
theorem CommandAt.step (h : Started e0 w bs) {j : Nat} {e : Engine} (hp : CommandAt e0 w bs j e)
    (hj : j < 9 * bs.length) : ∃ e', e.StepsTo cfg e' ∧ CommandAt e0 w bs (j + 1) e' := by
  cases hp with
  | byte q hq =>
    refine ⟨_, ⟨.stepXorByte, decodeFsm_selector _, fun u hu _ => ?_⟩, CommandAt.reduce q 0 hq (by omega)⟩
    have hr : u.eng.buf.read u.eng.idx.toNat = some bs[q] := by
      rw [hu]
      show e0.buf.read (e0.start + BitVec.ofNat 32 q).toNat = _
      rw [h.idx hq]
      exact h.covers.2 q hq
    show execStepXorByte u = _
    simp only [execStepXorByte, hr]
    rw [hu]
    congr 2
    simp only [Engine.mk.injEq, true_and, and_true, opByte, reduceTimes]
    refine ⟨?_, rfl⟩
    rw [BitVec.setWidth_xor]
    congr 1
    apply BitVec.eq_of_toNat_eq
    have hb := bs[q].isLt
    have h8 : 2 ^ 8 ≤ 2 ^ w := Nat.pow_le_pow_right (by omega) (WSel.width_bounds h.width).1
    simp only [BitVec.toNat_setWidth]
    rw [Nat.mod_eq_of_lt (a := bs[q].toNat) (b := 2 ^ w) (by omega)]
  | reduce q r hq hr =>
    have hbit : (BitVec.ofNat 3 r).toNat = r := by simp; omega
    have hstep : ∀ e' : Engine, Engine.advance { e0 with
          phase := .reduce,
          crc := (reduceTimes (r + 1) (e0.poly.setWidth w) (e0.coreOf w (bs.take q) ^^^ bs[q].setWidth w)).setWidth 32,
          idx := e0.start + BitVec.ofNat 32 q, bit := BitVec.ofNat 3 r } = e' →
        Engine.StepsTo cfg { e0 with
          phase := .reduce,
          crc := (reduceTimes r (e0.poly.setWidth w) (e0.coreOf w (bs.take q) ^^^ bs[q].setWidth w)).setWidth 32,
          idx := e0.start + BitVec.ofNat 32 q, bit := BitVec.ofNat 3 r } e' := by
      intro e' he'
      have hex : ∃ i, decodeFsm (Engine.selector { e0 with
          phase := .reduce,
          crc := (reduceTimes r (e0.poly.setWidth w) (e0.coreOf w (bs.take q) ^^^ bs[q].setWidth w)).setWidth 32,
          idx := e0.start + BitVec.ofNat 32 q, bit := BitVec.ofNat 3 r }) = .instr i ∧
          ∀ u, exec i u = reduceWith e0.wsel.reducer u := by
        rw [decodeFsm_selector]
        have hw := h.width
        cases hx : e0.wsel
        · exact ⟨_, rfl, fun u => rfl⟩
        · exact ⟨_, rfl, fun u => rfl⟩
        · exact ⟨_, rfl, fun u => rfl⟩
        · rw [hx] at hw; cases hw
      obtain ⟨i, hi, hall⟩ := hex
      refine ⟨i, hi, fun u hu _ => ?_⟩
      rw [hall, reduceWith_eq, hu]
      congr 2
      rw [← he', reduceTimes_succ, ← WSel.reducer_eq h.width]
    by_cases h7 : r < 7
    · refine ⟨_, hstep _ (Engine.advance_bit (by rw [hbit]; exact h7)), ?_⟩
      have hn := CommandAt.reduce (e0 := e0) (w := w) q (r + 1) hq (by omega)
      have hb : BitVec.ofNat 3 r + 1 = BitVec.ofNat 3 (r + 1) := by apply BitVec.eq_of_toNat_eq; simp
      show CommandAt e0 w bs _ { e0 with phase := .reduce, crc := _, idx := _, bit := BitVec.ofNat 3 r + 1 }
      rw [hb]
      exact hn
    · have hr7 : r = 7 := by omega
      subst hr7
      by_cases hlast : q + 1 = bs.length
      · have hend : ((e0.start + BitVec.ofNat 32 q).toNat : Int) = opEnd e0 := by
          rw [h.idx hq]; have := h.covers.1; have := h.start_nonneg; omega
        refine ⟨_, hstep _ (Engine.advance_finish (by rw [hbit]; exact h7) hend), ?_⟩
        have hn := CommandAt.finish (e0 := e0) (w := w) (bs := bs) (e0.start + BitVec.ofNat 32 q)
        rw [← Engine.coreOf_succ hq, hlast, List.take_length, show 9 * q + 7 + 1 + 1 = 9 * bs.length by omega]
        exact hn
      · have hend : ((e0.start + BitVec.ofNat 32 q).toNat : Int) ≠ opEnd e0 := by
          rw [h.idx hq]; have := h.covers.1; have := h.start_nonneg; omega
        refine ⟨_, hstep _ (Engine.advance_next (by rw [hbit]; exact h7) hend), ?_⟩
        have hn := CommandAt.byte (e0 := e0) (w := w) (bs := bs) (q + 1) (by omega)
        have hb : e0.start + BitVec.ofNat 32 q + 1 = e0.start + BitVec.ofNat 32 (q + 1) := by
          rw [BitVec.add_assoc]; congr 1; apply BitVec.eq_of_toNat_eq; simp
        show CommandAt e0 w bs _
          { e0 with phase := .xorByte, crc := _, idx := e0.start + BitVec.ofNat 32 q + 1, bit := 0 }
        rw [← Engine.coreOf_succ hq, hb, show 9 * q + 7 + 1 + 1 = 9 * (q + 1) by omega]
        exact hn
  | finish i => omega

/-- `CRC` after the first `m` bytes (R143). -/
theorem CommandAt.crc {m : Nat} {e : Engine} (h : CommandAt e0 w bs (9 * m) e) (hm : m ≤ bs.length) :
    e.crc = (e0.coreOf w (bs.take m)).setWidth 32 := by
  generalize hj : 9 * m = j at h
  cases h with
  | byte q hq => obtain rfl : m = q := by omega
                 rfl
  | reduce q r hq hr => omega
  | finish i => obtain rfl : m = bs.length := by omega
                rw [List.take_length]

/-- The turn of the selected instance, when its engine has the step (R12, R35). -/
theorem step_of_stepsTo {s : State} {e e' : Engine} {rest : List Event} (h : e.StepsTo s.cfg e') :
    step ((s.setEng e).setSched (.engine s.left.length :: rest)) = .next ((s.setEng e').setSched rest) := by
  obtain ⟨i, hi, hex⟩ := h
  have hsel : ((s.setEng e).setSched rest).select s.left.length = some ((s.setEng e).setSched rest) :=
    select_self ((s.setEng e).setSched rest)
  have hf : fetch ((s.setEng e).setSched (.engine s.left.length :: rest)) = .run i ((s.setEng e).setSched rest) := by
    simp only [fetch, State.setSched_sched, State.setSched_setSched, fetchEvent, hsel]
    unfold fetchEngine
    simp only [State.setSched_eng, State.setEng_eng, hi]
  exact (step_run hf).trans (hex ((s.setEng e).setSched rest) rfl rfl)

end Sys2Proof.Machine
end

