-- ==== Sys2Proof/Tests/Slice0.lean ====
section
/-! SUPPORT. The model's own tests: the check of `WellFormed` on an ill-formed term, the decoding of words written out from
the spec's encodings, single steps with the values of `95_test_vectors.md`, and for each statement with hypotheses a state
and operands that meet them. -/

namespace Sys2Proof.Tests

open Sys2Proof Sys2Proof.Machine

/-! ## Well-formedness -/

theorem test_wf_refuses_entry_widths :
    (Instr.wrCmd 8).wf = false ∧ (Instr.wrCmd 16).wf = false ∧ (Instr.wrCmd 32).wf = false := by decide

theorem test_wf_accepts_other_widths : (Instr.wrCmd 24).wf = true ∧ (Instr.wrCmd 0).wf = true ∧ Instr.crc8.wf = true := by
  decide

/-! ## Decoding: `RW`, `OFF` and `DATA` written out from R70 and R71, `WSEL` and `PHASE` from R73 and R75 -/

theorem test_decode_wrCmd : decode (.hbus (0b1#1 ++ 0b00000#5 ++ 24#32)) = .instr (.wrCmd 24) := by decide
theorem test_decode_crc8 : decode (.hbus (0b1#1 ++ 0b00000#5 ++ 8#32)) = .instr .crc8 := by decide
theorem test_decode_crc16 : decode (.hbus (0b1#1 ++ 0b00000#5 ++ 16#32)) = .instr .crc16 := by decide
theorem test_decode_crc32 : decode (.hbus (0b1#1 ++ 0b00000#5 ++ 32#32)) = .instr .crc32 := by decide
theorem test_decode_wrInit :
    decode (.hbus (0b1#1 ++ 0b00100#5 ++ 0xFFFFFFFF#32)) = .instr (.wrInit 0xFFFFFFFF) := by decide
theorem test_decode_wrPoly :
    decode (.hbus (0b1#1 ++ 0b01000#5 ++ 0xEDB88320#32)) = .instr (.wrPoly 0xEDB88320) := by decide
theorem test_decode_wrStart : decode (.hbus (0b1#1 ++ 0b01100#5 ++ 2#32)) = .instr (.wrStart 2) := by decide
theorem test_decode_wrEnd : decode (.hbus (0b1#1 ++ 0b10000#5 ++ 8#32)) = .instr (.wrEnd 8) := by decide
theorem test_decode_wrLen : decode (.hbus (0b1#1 ++ 0b10100#5 ++ 9#32)) = .instr (.wrLen 9) := by decide
theorem test_decode_wrStatus : decode (.hbus (0b1#1 ++ 0b11000#5 ++ 0#32)) = .instr (.wrStatus 0) := by decide
theorem test_decode_wrResult : decode (.hbus (0b1#1 ++ 0b11100#5 ++ 5#32)) = .instr (.wrResult 5) := by decide
theorem test_decode_rdCmd : decode (.hbus (0b0#1 ++ 0b00000#5 ++ 0#32)) = .instr .rdCmd := by decide
theorem test_decode_rdInit : decode (.hbus (0b0#1 ++ 0b00100#5 ++ 0#32)) = .instr .rdInit := by decide
theorem test_decode_rdPoly : decode (.hbus (0b0#1 ++ 0b01000#5 ++ 0#32)) = .instr .rdPoly := by decide
theorem test_decode_rdStart : decode (.hbus (0b0#1 ++ 0b01100#5 ++ 0#32)) = .instr .rdStart := by decide
theorem test_decode_rdEnd : decode (.hbus (0b0#1 ++ 0b10000#5 ++ 0#32)) = .instr .rdEnd := by decide
theorem test_decode_rdLen : decode (.hbus (0b0#1 ++ 0b10100#5 ++ 0#32)) = .instr .rdLen := by decide
theorem test_decode_rdStatus : decode (.hbus (0b0#1 ++ 0b11000#5 ++ 0xDEADBEEF#32)) = .instr .rdStatus := by decide
theorem test_decode_rdResult : decode (.hbus (0b0#1 ++ 0b11100#5 ++ 0#32)) = .instr .rdResult := by decide
theorem test_decode_stepXorByte :
    ∀ wsel : BitVec 2, decode (.fsm (wsel ++ 0b01#2)) = .instr .stepXorByte := by decide
theorem test_decode_stepReduce8 : decode (.fsm (0b00#2 ++ 0b10#2)) = .instr .stepReduce8 := by decide
theorem test_decode_stepReduce16 : decode (.fsm (0b01#2 ++ 0b10#2)) = .instr .stepReduce16 := by decide
theorem test_decode_stepReduce32 : decode (.fsm (0b10#2 ++ 0b10#2)) = .instr .stepReduce32 := by decide
theorem test_decode_stepFinish : ∀ wsel : BitVec 2, decode (.fsm (wsel ++ 0b11#2)) = .instr .stepFinish := by decide

/-- V-R6, V-D3: what is refused, and the selectors without a step. -/
theorem test_decode_refuses :
    decode (.hbus (0b1#1 ++ 0b00010#5 ++ 0#32)) = .misaligned ∧ decode (.hbus (0b0#1 ++ 0b11101#5 ++ 0#32)) = .misaligned ∧
    (∀ wsel : BitVec 2, decode (.fsm (wsel ++ 0b00#2)) = .noStep) ∧
    decode (.fsm (0b11#2 ++ 0b10#2)) = .unreachableSelector := by decide

/-- The examples of R104 to R109: assembled words, not only decoded ones. -/
theorem test_encode_examples :
    encode (.wrInit 0xFFFFFFFF) = .hbus 0x24FFFFFFFF ∧ encode (.wrPoly 0xEDB88320) = .hbus 0x28EDB88320 ∧
    encode (.wrStart 2) = .hbus 0x2C00000002 ∧ encode (.wrEnd 8) = .hbus 0x3000000008 ∧
    encode (.wrLen 9) = .hbus 0x3400000009 ∧ encode (.wrStatus 0) = .hbus 0x3800000000 ∧
    encode .crc32 = .hbus 0x2000000020 ∧ encode .rdStatus = .hbus 0x1800000000 ∧ encode .stepReduce16 = .fsm 0b0110 := by
  decide

/-- The opcode table's own numbers, in whole bytes. -/
theorem test_table_words :
    decodeTableWord 40 0x2000000000 = some (.wrCmd 0) ∧ decodeTableWord 40 0x2000000008 = some .crc8 ∧
    decodeTableWord 40 0x3C00000000 = some (.wrResult 0) ∧ decodeTableWord 40 0 = some .rdCmd ∧
    decodeTableWord 38 0x1C00000000 = some .rdResult ∧ decodeTableWord 8 0b0001 = some .stepXorByte ∧
    decodeTableWord 8 0b1010 = some .stepReduce32 ∧ decodeTableWord 4 0b0011 = some .stepFinish ∧
    decodeTableWord 8 0 = none ∧ decodeTableWord 40 0x0200000000 = none := by decide

/-! ## States for the steps -/

/-- The ASCII bytes of "123456789". -/
def digits : List Byte := [0x31, 0x32, 0x33, 0x34, 0x35, 0x36, 0x37, 0x38, 0x39]

/-- An idle instance at 0x1000 with the operands of V-F10. -/
def idleEngine : Engine :=
  { Engine.atReset 0x1000 (Memory.ofList digits) with init := 0, poly := 0x8C, start := 0, end_ := 8, len := 9 }

/-- That instance with the command of V-F10 just accepted. -/
def busyEngine : Engine := acceptCommand (Config.defaults "") 8 idleEngine

/-- One instance, in the given state. -/
def one (e : Engine) : State := State.reset.setEng e

/-- Three instances with windows apart, the one given in the middle. -/
def three (e : Engine) (evs : List Event) : State :=
  { State.reset with left := [Engine.atReset 0 []], eng := e, right := [Engine.atReset 0x2000 []], sched := evs }

/-- A value of the next state, if there is one. -/
def after {α : Type} (o : Out) (f : State → α) : Option α :=
  match o with
  | .next t => some (f t)
  | .fault _ => none
  | .refused _ => none

/-- The fault a step stops with, if it does. -/
def faultOf (o : Out) : Option Fault :=
  match o with
  | .next _ => none
  | .fault f => some f
  | .refused _ => none

/-- The refusal a step stops with, if it does. -/
def refusalOf (o : Out) : Option Refusal :=
  match o with
  | .next _ => none
  | .fault _ => none
  | .refused r => some r

/-- Validation under the default policy, and the `STATUS` that the command leaves: `START`, `END`, `LEN` and the width. -/
def statusOf (p : MinRange) (width st en len : Word) : Word :=
  (acceptCommand { minRange := p, xorOut := 0, msgOutOfBounds := "" } width { Engine.atReset 0 [] with start := st, end_ := en, len := len }).status

/-! ## Reset -/

/-- R40, R191. -/
theorem test_reset_values : State.reset.eng.atResetValues ∧ State.reset.cfg.minRange = .two ∧ State.reset.cfg.xorOut = 0 := by
  unfold Engine.atResetValues; decide

/-- V-R5: reset in mid-command clears the instance and leaves `BUF`. -/
theorem test_reset_in_mid_command :
    after (step (three busyEngine [.reset 1])) id = some (three (Engine.atReset 0x1000 (Memory.ofList digits)) []) := by decide

/-- With nothing scheduled, the platform after reset keeps its state (log entry 7). -/
theorem test_reset_then_nothing : after (step State.reset) id = some State.reset := by decide

/-! ## Commands -/

/-- V-P1, line 7, and V-F9 at width 32. -/
theorem test_crc32_starts :
    after (exec .crc32 (one { idleEngine with init := 0xFFFFFFFF, poly := 0xEDB88320 }))
      (fun t => (t.eng.status, t.eng.crc, t.eng.idx, t.eng.phase, t.eng.wsel)) =
      some (0x01, 0xFFFFFFFF, 0, .xorByte, .w32) := by decide

/-- V-F9: `INIT` masked to 16 bits in `CRC`, and kept in full in the register. -/
theorem test_crc16_masks_init :
    after (exec .crc16 (one { idleEngine with init := 0xFFFFFFFF })) (fun t => (t.eng.crc, t.eng.init)) =
      some (0xFFFF, 0xFFFFFFFF) := by decide

/-- V-F9: masked to 8 bits. -/
theorem test_crc8_masks_init :
    after (exec .crc8 (one { idleEngine with init := 0x1200 })) (fun t => (t.eng.crc, t.eng.wsel)) =
      some (0x00, .w8) := by decide

/-- V-R4: the width is kept, the command fails. -/
theorem test_wrCmd_bad_width :
    after (exec (.wrCmd 24) (one { idleEngine with result := 0xA1, status := 0x02 }))
      (fun t => (t.eng.cmd, t.eng.status, t.eng.result, t.eng.phase)) = some (24, 0x4A, 0, .idle) := by decide

/-- V-R3: ignored while busy. -/
theorem test_wrCmd_busy : after (exec .crc16 (one busyEngine)) id = some (one busyEngine) := by decide

/-- V-E1 to V-E3: `START`, `END` and the width at their boundaries. -/
theorem test_validation_errors :
    statusOf .two 8 5 2 9 = 0x16 ∧ statusOf .two 8 0 (-1) 9 = 0x16 ∧ statusOf .two 24 0 8 9 = 0x4A ∧
    statusOf .two 0 0 8 9 = 0x4A ∧ statusOf .two 64 0 8 9 = 0x4A ∧ statusOf .two 0xFFFFFFFF 0 8 9 = 0x4A ∧
    statusOf .two 8 0 9 9 = 0x36 ∧ statusOf .two 8 (-1) 3 9 = 0x36 ∧ statusOf .two 8 (-5) (-1) 9 = 0x36 ∧
    statusOf .two 32 0 0x7FFFFFFF 9 = 0x36 := by decide

/-- V-E4 to V-E7: the policy and the order of the checks. -/
theorem test_validation_order :
    statusOf .two 8 3 3 9 = 0x26 ∧ statusOf .one 8 3 3 9 = 0x01 ∧ statusOf .two 8 0 0 0 = 0x26 ∧
    statusOf .one 8 0 0 0 = 0x36 ∧ statusOf .two 24 5 2 9 = 0x16 ∧ statusOf .two 24 0 9 9 = 0x4A ∧
    statusOf .two 24 9 9 9 = 0x26 ∧ statusOf .two 8 0 8 9 = 0x01 := by decide

/-! ## Register writes and reads -/

/-- V-R1. -/
theorem test_wrInit : after (exec (.wrInit 0xFFFFFFFF) (one idleEngine)) (fun t => t.eng.init) = some 0xFFFFFFFF := by decide
theorem test_wrPoly_unmasked :
    after (exec (.wrPoly 0x1234568C) (one idleEngine)) (fun t => t.eng.poly) = some 0x1234568C := by decide
theorem test_wrStart_negative :
    after (exec (.wrStart (-1)) (one idleEngine)) (fun t => opStart t.eng) = some (-1) := by decide
theorem test_wrEnd : after (exec (.wrEnd 9) (one idleEngine)) (fun t => (t.eng.end_, t.eng.start)) = some (9, 0) := by decide
theorem test_wrLen : after (exec (.wrLen 13) (one idleEngine)) (fun t => opLen t.eng) = some 13 := by decide

/-- V-R2. -/
theorem test_wrStatus_ignored :
    after (exec (.wrStatus 0) (one { idleEngine with status := 0x4A })) (fun t => t.eng.status) = some 0x4A := by decide
theorem test_wrResult_ignored :
    after (exec (.wrResult 5) (one { idleEngine with result := 0xA1 })) (fun t => t.eng.result) = some 0xA1 := by decide

/-- V-R3: a write of an operand while busy is ignored. -/
theorem test_wrPoly_busy : after (exec (.wrPoly 0xE0) (one busyEngine)) (fun t => t.eng.poly) = some 0x8C := by decide

theorem test_rdCmd : after (exec .rdCmd (one { idleEngine with cmd := 24 })) (·.lastRead) = some (some 0x18) := by decide
theorem test_rdInit : after (exec .rdInit State.reset) (·.lastRead) = some (some 0) := by decide
theorem test_rdPoly :
    after (exec .rdPoly (one { idleEngine with poly := 0x1234568C })) (·.lastRead) = some (some 0x1234568C) := by decide
theorem test_rdStart :
    after (exec .rdStart (one { idleEngine with start := -1 })) (·.lastRead) = some (some 0xFFFFFFFF) := by decide
theorem test_rdEnd : after (exec .rdEnd (one idleEngine)) (·.lastRead) = some (some 8) := by decide
theorem test_rdLen : after (exec .rdLen (one idleEngine)) (·.lastRead) = some (some 9) := by decide
theorem test_rdStatus_busy : after (exec .rdStatus (one busyEngine)) (·.lastRead) = some (some 0x01) := by decide
theorem test_rdResult_busy : after (exec .rdResult (one busyEngine)) (·.lastRead) = some (some 0) := by decide

/-! ## The sub-blocks -/

/-- V-F1 to V-F3. -/
theorem test_network :
    polyXorNetwork 0x01#8 0x8C = 0x8C ∧ polyXorNetwork 0xFE#8 0x8C = 0x7F ∧ polyXorNetwork 0xFF#8 0x00 = 0x7F ∧
    polyXorNetwork 0xFF#8 0xFF = 0x80 ∧ polyXorNetwork 0x0001#16 0x8408 = 0x8408 ∧
    polyXorNetwork 0x00000001#32 0xEDB88320 = 0xEDB88320 ∧ polyXorNetwork 0xFFFFFFFF#32 0xFFFFFFFF = 0x80000000 := by
  decide

/-- V-F4 to V-F6. -/
theorem test_reducers :
    crc8Reducer 0xFF 0x8C = 0xF3 ∧ crc8Reducer 0x01 0x1234568C = 0x8C ∧ crc8Reducer 0x80 0x8C = 0x40 ∧
    crc16Reducer 0xFFFF 0xA001 = 0xDFFE ∧ crc16Reducer 0x0001 0xFFFFA001 = 0xA001 ∧ crc16Reducer 0x8000 0xA001 = 0x4000 ∧
    crc32Reducer 0xFFFFFFFF 0xEDB88320 = 0x92477CDF ∧ crc32Reducer 0x80000000 0xEDB88320 = 0x40000000 := by decide

/-- V-F10, V-F12, V-F15 and V-S1: the functional core over "123456789". -/
theorem test_core_width8 : crcValue 8 0 0x00 0x8C digits = 0xA1 := by decide +kernel
theorem test_core_width16 : crcValue 16 0 0xFFFF0000 0xFFFFA001 digits = 0xBB3D := by decide +kernel
theorem test_core_width32 : crcValue 32 0 0xFFFFFFFF 0xEDB88320 digits = 0x340BC6D9 := by decide +kernel
theorem test_core_xorOut : crcValue 32 0xFFFFFFFF 0xFFFFFFFF 0xEDB88320 digits = 0xCBF43926 := by decide +kernel

/-- V-F21. -/
theorem test_core_linear :
    crcCore 0x1234#16 0xA001 [0x01, 0x02] = 0x9C16 ∧ crcCore 0xFFFF#16 0xA001 [0x10, 0x20] = 0xA80D ∧
    crcCore (0x1234#16 ^^^ 0xFFFF) 0xA001 [0x11, 0x22] = 0x341B := by decide +kernel

/-! ## Engine steps -/

/-- V-F7, at width 32. -/
theorem test_stepXorByte :
    after (exec .stepXorByte (one { busyEngine with crc := 0xFFFFFFFF, wsel := .w32, bit := 5 }))
      (fun t => (t.eng.crc, t.eng.bit, t.eng.phase, t.eng.idx, t.eng.status)) =
      some (0xFFFFFFCE, 0, .reduce, 0, 0x01) := by decide

/-- R50: past the real end of `BUF` there is no step. -/
theorem test_stepXorByte_past_end :
    faultOf (exec .stepXorByte (one { busyEngine with idx := 9 })) = some .bufferReadNotAdmitted := by decide

/-- V-P3, step 8: a bit of the byte. -/
theorem test_stepReduce8 :
    after (exec .stepReduce8 (one { busyEngine with crc := 0x61, bit := 6, phase := .reduce }))
      (fun t => (t.eng.crc, t.eng.bit, t.eng.phase)) = some (0xBC, 7, .reduce) := by decide

/-- V-P3, step 18: the last bit of the last byte. -/
theorem test_stepReduce8_last :
    after (exec .stepReduce8 (one { busyEngine with crc := 0xF0, bit := 7, phase := .reduce, end_ := 1, idx := 1 }))
      (fun t => (t.eng.crc, t.eng.bit, t.eng.phase, t.eng.idx)) = some (0x78, 0, .finish, 1) := by decide

/-- V-F5, with the last bit of a byte that is not the last. -/
theorem test_stepReduce16 :
    after (exec .stepReduce16 (one { busyEngine with crc := 0x0031, poly := 0xA001, bit := 7, phase := .reduce, wsel := .w16 }))
      (fun t => (t.eng.crc, t.eng.bit, t.eng.phase, t.eng.idx)) = some (0xA019, 0, .xorByte, 1) := by decide

/-- V-F6. -/
theorem test_stepReduce32 :
    after (exec .stepReduce32 (one { busyEngine with crc := 0xFFFFFFCE, poly := 0xEDB88320, phase := .reduce, wsel := .w32 }))
      (fun t => (t.eng.crc, t.eng.bit)) = some (0x7FFFFFE7, 1) := by decide

/-- V-F8: `XOROUT` is masked to the width. -/
theorem test_stepFinish :
    after (exec .stepFinish ((State.mk { minRange := .two, xorOut := 0xFFFFFFFF, msgOutOfBounds := "" } []
      { busyEngine with crc := 0x6F91, phase := .finish, wsel := .w16 } [] [] none)))
      (fun t => (t.eng.result, t.eng.status, t.eng.phase, t.eng.crc)) = some (0x906E, 0x02, .idle, 0x6F91) := by decide

/-- U9: `STEP_FINISH` with `WSEL = 11` runs; the value of `RESULT` is free. -/
theorem test_stepFinish_reserved :
    after (exec .stepFinish (one { busyEngine with phase := .finish, wsel := .reserved }))
      (fun t => (t.eng.status, t.eng.phase, t.eng.wsel)) = some (0x02, .idle, .reserved) := rfl

/-! ## The step of the platform -/

/-- A transaction reaches the instance whose window holds its address. -/
theorem test_step_bus :
    after (step (three idleEngine [.bus (writeAccess 0x2000 .init 7)]))
      (fun t => (t.engines.map (·.init), t.sched)) = some ([0, 0, 7], []) := by decide

/-- The engine's turn runs the selected step. -/
theorem test_step_engine :
    after (step (three busyEngine [.engine 1, .engine 0])) (fun t => (t.eng.phase, t.eng.crc, t.sched)) =
      some (.reduce, 0x31, [.engine 0]) := by decide

/-- An idle instance's turn changes nothing (R176). -/
theorem test_step_idle : after (step (one idleEngine)) id = some (one idleEngine) := by decide

/-- R55, R79: accesses that do not exist. -/
theorem test_step_refusals :
    refusalOf (step (three idleEngine [.bus { write := true, addr := 0x1000, bits := 16, data := 0 }])) = some .accessNot32Bits ∧
    refusalOf (step (three idleEngine [.bus { write := false, addr := 0x1002, bits := 32, data := 0 }])) = some .misalignedAccess ∧
    refusalOf (step (three idleEngine [.bus { write := false, addr := 0x1020, bits := 32, data := 0 }])) = some .outsideEveryWindow ∧
    refusalOf (step (three idleEngine [.engine 3])) = some .noSuchInstance := by decide

/-- R177, R79: the faults of an agent's turn. -/
theorem test_step_faults :
    faultOf (step (three busyEngine [.bufWrite 1 0 0])) = some .hostBufferWriteWhileBusy ∧
    faultOf (step (three busyEngine [.bufFill 1 [0]])) = some .hostBufferWriteWhileBusy ∧
    faultOf (step (one { busyEngine with phase := .reduce, wsel := .reserved })) = some .unreachableSelector := by decide

/-- R196: while idle, the host writes `BUF` freely, one byte or a whole input. -/
theorem test_step_buffer :
    after (step (three idleEngine [.bufWrite 1 0 0x41])) (fun t => (t.eng.buf.read 0, t.eng.buf.read 1)) =
      some (some 0x41, some 0x32) ∧
    after (step (three idleEngine [.bufFill 1 [7]])) (fun t => (t.eng.buf.read 0, t.eng.buf.read 1)) =
      some (some 7, none) ∧
    refusalOf (step (three idleEngine [.bufWrite 1 0x7FFFFFFF 0])) = some .inputTooLong := by decide

/-- R196: from an accepted command, a failed one too, until a read of `STATUS` returns `BUSY = 0`, `BUF` may not be written;
the fault comes before the refusal (log entry 13), and a reset closes the window (log entry 12). -/
theorem test_buffer_window :
    faultOf (step (three { idleEngine with bufHeld := true } [.bufWrite 1 0 0])) = some .hostBufferWriteWhileBusy ∧
    faultOf (step (three busyEngine [.bufWrite 1 0x7FFFFFFF 0])) = some .hostBufferWriteWhileBusy ∧
    after (exec (.wrCmd 24) (one idleEngine)) (fun t => (t.eng.phase, t.eng.bufHeld)) = some (.idle, true) ∧
    after (exec .rdStatus (one { idleEngine with bufHeld := true, status := 0x02 })) (·.eng.bufHeld) = some false ∧
    after (exec .rdStatus (one busyEngine)) (·.eng.bufHeld) = some true ∧
    after (exec .rdResult (one { idleEngine with bufHeld := true })) (·.eng.bufHeld) = some true ∧
    after (step (three busyEngine [.reset 1])) (fun t => t.engines.map (·.bufHeld)) = some [false, false, false] := by decide

/-- A placed instruction is the very next step, from reset. -/
theorem test_withFetchWord_hbus :
    fetch (State.reset.withFetchWord 40 0x2C00000002) = .run (.wrStart 2) State.reset ∧
    fetch (State.reset.withFetchWord 40 0x2000000020) = .run .crc32 State.reset ∧
    fetch (State.reset.withFetchWord 40 0x1C00000000) = .run .rdResult State.reset := by decide

theorem test_withFetchWord_fsm :
    after (step (State.reset.withFetchWord 8 0b0001)) (fun t => t.eng.phase) = some .reduce ∧
    after (step (State.reset.withFetchWord 8 0b1010)) (fun t => (t.eng.phase, t.eng.bit)) = some (.reduce, 1) ∧
    after (step (State.reset.withFetchWord 8 0b0011)) (fun t => t.eng.status) = some 0x02 := by decide

/-! ## Memory -/

/-- Writes keep the canonical form, in any order. -/
theorem test_memory_canonical :
    ((Memory.ofList [1, 2]).write 5 9).write 3 4 = [(0, 1), (1, 2), (3, 4), (5, 9)] ∧
    Memory.wf [(0, 1), (1, 2), (3, 4)] = true ∧ Memory.wf [(1, 2), (0, 1)] = false ∧ Memory.wf [(1, 2), (1, 2)] = false := by
  decide

/-! ## The host's side -/

/-- V-H1 to V-H3. -/
theorem test_formatHex :
    hexDigits 8 0x0B = ['0', 'b'] ∧ hexDigits 16 0x00A1 = ['0', '0', 'a', '1'] ∧
    hexDigits 32 0x340BC6D9 = ['3', '4', '0', 'b', 'c', '6', 'd', '9'] := by decide

/-- V-S7. -/
theorem test_highlight : highlight 5 = 5 ∧ highlightReverse 0 = 0 := by decide

/-- R81: a negative number is its two's complement. -/
theorem test_line_encoding :
    (Line.wr .start (-1)).encode = some 0x2CFFFFFFFF ∧ (Line.rd .status).encode = some 0x1800000000 ∧
    (Line.label 1).encode = none := by decide

/-- R81, R82: the ASCII bytes of a text. -/
theorem test_text_bytes :
    asciiBytes "123456789" = digits ∧ bufText "A" = .buf [0x41] ∧
    (setbufText "AB").expand 7 = [.buf [0x41, 0x42], .wr .len 2] := by decide

/-- Log entry 9: the first place of a label that stands twice, and the last of several launch directives. -/
theorem test_label_and_launch_choices :
    labelPlace [.rd .cmd, .label 1, .label 1] 1 = some 1 ∧
    launchEvents 0 [.buf [1], .comment "x", .buf [2, 3]] = [.bufFill 0 [1], .bufFill 0 [2, 3]] := by decide

/-- Log entry 11: a program's transaction for an instance that the platform does not have is refused. -/
theorem test_program_without_instance :
    HostRun.step { prog := [.rd .status], inst := 3, pc := 0, st := three idleEngine [] } = .refused .noSuchInstance := rfl

/-- R121: the strings of the option "Bits" and the widths that the host writes. -/
theorem test_bits_option :
    bitsOption "8" = some .bits8 ∧ bitsOption "16" = some .bits16 ∧ bitsOption "32" = some .bits32 ∧
    bitsOption "24" = none ∧ BitsOption.bits8.value = 8 ∧ BitsOption.bits16.value = 16 ∧ BitsOption.bits32.value = 32 := by
  decide

/-- R8, R162: the message of OUT_OF_BOUNDS is the parameter's. -/
theorem test_message_parameter :
    hostReturn (Config.defaults "out") 8 0x36 0 =
      some (.error { kind := .invalidRange, reason := .outOfBounds, text := "out" }) := rfl

/-- R82: the expansion of `crc8`, with the fresh label 7. -/
theorem test_expansion :
    (Pseudo.crc8 0 0x8C 3 3).expand 7 =
      [.wr .init 0, .wr .poly 0x8C, .wr .start 3, .wr .end_ 3, .wr .cmd 8, .label 7, .rd .status, .bbusy 7, .rd .result] ∧
    (Pseudo.setbuf [1, 2]).expand 7 = [.buf [1, 2], .wr .len 2] := by decide

/-- R81: `bbusy` follows bit 0 of the last value read. -/
theorem test_bbusy :
    branchTaken { State.reset with lastRead := some 0x01 } = true ∧
    branchTaken { State.reset with lastRead := some 0x02 } = false ∧ branchTaken State.reset = false := by decide

/-! ## Witnesses: concrete states and operands that meet the hypotheses of each statement -/

/-- An instance with the command of V-P3 (two bytes) not yet written. -/
def twoBytes : Engine :=
  { Engine.atReset 0x1000 (Memory.ofList [0x01, 0x02]) with poly := 0x8C, start := 0, end_ := 1, len := 2 }

/-- An idle instance that satisfies the invariant. -/
theorem test_idle_inv (p : MinRange) (e : Engine) (hp : e.phase = .idle) (hs : e.status = 0) (hr : e.result = 0)
    (hw : e.wsel = .w8) (hb : e.buf.wf = true) : e.Inv { minRange := p, xorOut := 0, msgOutOfBounds := "" } := by
  refine ⟨by rw [hs]; decide, by rw [hs, hp]; decide, fun h => absurd (hs.symm.trans h) (by decide), by rw [hw]; decide, fun _ => hr, ?_,
    fun h => absurd hp h, hb⟩
  rw [hs]; intro h; exact absurd h (by decide)

theorem test_witness_DecodeOfEncodeIsTheInstruction : (Instr.wrCmd 24).wf = true ∧ Instr.stepFinish.wf = true := by decide

theorem test_witness_DecodedInstructionsAreWellFormed :
    decode (.hbus 0x2000000018) = .instr (.wrCmd 24) ∧ decode (.fsm 0b1011) = .instr .stepFinish := by decide

/-- Both rows that cover the word of `CRC8`, and the wider mask. -/
theorem test_witness_DecoderIsTotalAndAgreesWithTheRows :
    decode (.hbus 0x2000000008) = .instr .crc8 ∧ (Instr.wrCmd 0).row.covers (.hbus 0x2000000008) = true ∧
    Instr.crc8.row.covers (.hbus 0x2000000008) = true ∧ (Instr.wrCmd 0).row.maskWithin Instr.crc8.row = true ∧
    Instr.crc8.row.maskWithin (Instr.wrCmd 0).row = false := by decide

theorem test_witness_EncodeOfDecodedTransactionIsTheWord :
    decode (.hbus 0x24FFFFFFFF) = .instr (.wrInit 0xFFFFFFFF) ∧ (0x24FFFFFFFF : BitVec 38).getLsbD 37 = true ∧
    decode (.hbus 0x18DEADBEEF) = .instr .rdStatus ∧ (0x18DEADBEEF : BitVec 38).getLsbD 37 = false := by decide

theorem test_witness_StepRunsTheDecodedTransaction :
    windowIndex (three idleEngine []).engines 0x201C = some 2 ∧
    (three idleEngine []).engines[2]? = some (Engine.atReset 0x2000 []) ∧
    decode (.hbus (hbusWord true (BitVec.ofNat 5 (0x201C - 0x2000)) 5)) = .instr (.wrResult 5) := by decide

theorem test_witness_StepRunsTheSelectedEngineStep :
    (three busyEngine [.engine 1]).engines[1]? = some busyEngine ∧
    decode (.fsm (busyEngine.wsel.code ++ busyEngine.phase.code)) = .instr .stepXorByte ∧
    (one busyEngine).sched = [] := by decide

theorem test_witness_IdleEngineTakesNoStep :
    (three busyEngine [.engine 2]).engines[2]? = some (Engine.atReset 0x2000 []) ∧
    (Engine.atReset 0x2000 []).phase = .idle ∧ State.reset.sched = [] ∧ State.reset.eng.phase = .idle := by decide

theorem test_witness_UnreachableSelectorIsAFault :
    (three { busyEngine with phase := .reduce, wsel := .reserved } [.engine 1]).engines[1]? =
      some { busyEngine with phase := .reduce, wsel := .reserved } := by decide

/-- 16 bits; one address past the last window; an odd offset in a window. -/
theorem test_witness_AccessesThatDoNotExistAreRefused :
    (16 : Nat) ≠ 32 ∧ (∀ e ∈ (three idleEngine []).engines, e.inWindow 0x2020 = false) ∧
    windowIndex (three idleEngine []).engines 0x201D = some 2 ∧ (0x201D - 0x2000) % 4 ≠ 0 := by decide

/-- Busy; idle with `STATUS` not read yet; idle with the last index of the longest input; idle with the next one. -/
theorem test_witness_BufferWritesFaultOnlyInTheirWindow :
    (three busyEngine [.bufWrite 1 0 0]).engines[1]? = some busyEngine ∧ busyEngine.phase ≠ .idle ∧
    ({ idleEngine with bufHeld := true } : Engine).bufHeld = true ∧
    (three idleEngine []).engines[1]? = some idleEngine ∧ idleEngine.phase = .idle ∧ idleEngine.bufHeld = false ∧
    0x7FFFFFFE + 1 ≤ 0x7FFFFFFF ∧ 0x7FFFFFFF < 0x7FFFFFFF + 1 := by decide

/-- Busy; idle with `STATUS` not read yet; idle with the longest input; idle with one that is a byte longer. -/
theorem test_witness_BufferFillHoldsExactlyTheInput :
    busyEngine.phase ≠ .idle ∧ ({ idleEngine with bufHeld := true } : Engine).bufHeld = true ∧ idleEngine.phase = .idle ∧
    idleEngine.bufHeld = false ∧ digits.length ≤ 0x7FFFFFFF ∧
    (List.replicate 0x7FFFFFFF (0 : Byte)).length ≤ 0x7FFFFFFF ∧
    0x7FFFFFFF < (List.replicate 0x80000000 (0 : Byte)).length := by
  rw [List.length_replicate, List.length_replicate]; decide

theorem test_witness_ResetPutsEveryPieceAtItsValue :
    (three busyEngine [.reset 1]).sched = [.reset 1] ∧ (three busyEngine [.reset 1]).engines[1]? = some busyEngine ∧
    State.reset.engines = [Engine.atReset 0 []] := by decide

theorem test_witness_WritesWhileBusyHaveNoEffect :
    (one busyEngine).eng.phase ≠ .idle ∧ (one { busyEngine with phase := .reduce }).eng.phase ≠ .idle ∧
    (one { busyEngine with phase := .finish }).eng.phase ≠ .idle := by decide

theorem test_witness_OperandWritesStoreTheirData : (one idleEngine).eng.phase = .idle := by decide

theorem test_witness_RegisterWriteFrame :
    (after (exec (hostWriteInstr .poly 1) (one idleEngine)) id).isSome = true ∧
    (after (exec (hostWriteInstr .status 1) (one busyEngine)) id).isSome = true ∧ Reg.poly ≠ .cmd ∧ Reg.status ≠ .cmd := by
  decide

theorem test_witness_RegisterReadFrame : (after (exec (hostReadInstr .result) (one busyEngine)) id).isSome = true := by decide

/-- Each answer of `validate`, where its ranges meet (V-E1 to V-E7). -/
theorem test_witness_ValidateGivesTheFirstFailure :
    validate .two 8 1 0 9 = some .endBeforeStart ∧ validate .two 8 3 3 9 = some .spanTooShort ∧
    validate .two 24 3 4 9 = some .badWidth ∧ validate .two 32 8 9 9 = some .outOfBounds ∧
    validate .two 16 (-1) 3 9 = some .outOfBounds ∧ validate .two 8 7 8 9 = none ∧ validate .one 8 8 8 9 = none ∧
    validate .one 8 9 9 9 = some .outOfBounds := by decide

theorem test_witness_ValidCommandStartsTheEngine :
    (one idleEngine).eng.phase = .idle ∧ validate .two (8 : Word).toNat (0 : Word).toInt (8 : Word).toInt (9 : Word).toNat = none ∧
    validate .two (16 : Word).toNat (0 : Word).toInt (8 : Word).toInt (9 : Word).toNat = none ∧
    validate .two (32 : Word).toNat (7 : Word).toInt (8 : Word).toInt (9 : Word).toNat = none ∧
    (one idleEngine).cfg.minRange = .two := by decide

theorem test_witness_EntryPointsStartTheirCommands :
    validate .two 8 idleEngine.start.toInt idleEngine.end_.toInt idleEngine.len.toNat = none ∧
    validate .two 16 idleEngine.start.toInt idleEngine.end_.toInt idleEngine.len.toNat = none ∧
    validate .two 32 idleEngine.start.toInt idleEngine.end_.toInt idleEngine.len.toNat = none := by decide

theorem test_witness_FailedCommandReportsItsError :
    (one idleEngine).eng.phase = .idle ∧
    validate .two (24 : Word).toNat idleEngine.start.toInt idleEngine.end_.toInt idleEngine.len.toNat = some .badWidth ∧
    validate .two (8 : Word).toNat (5 : Word).toInt (2 : Word).toInt (9 : Word).toNat = some .endBeforeStart ∧
    validate .two (8 : Word).toNat (3 : Word).toInt (3 : Word).toInt (9 : Word).toNat = some .spanTooShort ∧
    validate .two (8 : Word).toNat (-1 : Word).toInt (3 : Word).toInt (9 : Word).toNat = some .outOfBounds := by decide

theorem test_witness_CommandAfterResetFails :
    State.reset.eng.atResetValues ∧ State.reset.cfg.minRange = .two ∧
    ({ State.reset with cfg := { minRange := .one, xorOut := 0, msgOutOfBounds := "" } } : State).eng.atResetValues := by
  unfold Engine.atResetValues; decide

theorem test_witness_CommandFrame :
    (after (exec (hostWriteInstr .cmd 8) (one idleEngine)) (·.eng.phase)) = some .xorByte ∧
    (after (exec (hostWriteInstr .cmd 24) (one idleEngine)) (·.eng.phase)) = some .idle := by decide

theorem test_witness_XorByteStepTakesItsByte :
    (one busyEngine).eng.buf.read (one busyEngine).eng.idx.toNat = some 0x31 ∧
    (one { busyEngine with idx := 8 }).eng.buf.read (8 : Word).toNat = some 0x39 ∧
    (one { busyEngine with idx := 9 }).eng.buf.read (9 : Word).toNat = none := by decide

/-- `BIT` 6 and 7; `IDX` at the end and one before it; the same operands serve the three widths. -/
theorem test_witness_ReduceSteps :
    (6 : BitVec 3).toNat < 7 ∧ (7 : BitVec 3).toNat = 7 ∧ ((8 : Word).toNat : Int) = idleEngine.end_.toInt ∧
    ((7 : Word).toNat : Int) ≠ idleEngine.end_.toInt := by decide

theorem test_witness_FinishStepWritesTheResult :
    (one busyEngine).eng.wsel = .w8 ∧ (one { busyEngine with wsel := .w16 }).eng.wsel = .w16 ∧
    (one { busyEngine with wsel := .w32 }).eng.wsel = .w32 ∧
    (one { busyEngine with wsel := .reserved }).eng.wsel = .reserved := by decide

theorem test_witness_EngineStepFrame :
    (after (exec .stepXorByte (one busyEngine)) id).isSome = true ∧
    (after (exec .stepReduce8 (one busyEngine)) id).isSome = true ∧
    (after (exec .stepReduce16 (one busyEngine)) id).isSome = true ∧
    (after (exec .stepReduce32 (one busyEngine)) id).isSome = true ∧
    (after (exec .stepFinish (one busyEngine)) id).isSome = true := by decide

theorem test_witness_NoInstructionWritesMemoryOrOthers :
    (after (exec .stepXorByte (one busyEngine)) id).isSome = true ∧
    (after (exec .crc8 (three idleEngine [])) id).isSome = true := by decide

/-- The two kinds of instruction; and the three kinds of step, on instance 1 of a platform. -/
theorem test_witness_OnlyCommandsFinishAndResetWriteStatusAndResult :
    (after (exec .crc8 (one idleEngine)) (·.eng.status)) = some 0x01 ∧ (one idleEngine).eng.status ≠ 0x01 ∧
    (after (exec .stepFinish (one busyEngine)) (·.eng.status)) = some 0x02 ∧ (one busyEngine).eng.status ≠ 0x02 ∧
    (after (step (three idleEngine [.bus (writeAccess 0x1000 .cmd 24)])) (fun t => t.engines.map (·.status))) =
      some [0, 0x4A, 0] ∧
    (after (step (three { busyEngine with phase := .finish } [.engine 1])) (fun t => t.engines.map (·.status))) =
      some [0, 0x02, 0] ∧
    (after (step (three busyEngine [.reset 1])) (fun t => t.engines.map (·.status))) = some [0, 0, 0] ∧
    (three busyEngine []).engines.map (·.status) = [0, 0x01, 0] := by decide

theorem test_witness_OtherInstancesAndParametersStay :
    (after (step (three busyEngine [.engine 1])) id).isSome = true ∧ (three busyEngine [.engine 1]).actor ≠ some 0 := by decide

theorem test_witness_StepsOfDifferentInstancesCommute :
    (Event.engine 1).target = some 1 ∧ (Event.bufWrite 2 0 5).target = some 2 ∧ (1 : Nat) ≠ 2 ∧
    (after (Host.Core.run Sys2Proof.core 2 ((three busyEngine []).setSched [.engine 1, .bufWrite 2 0 5]))
      (fun t => t.sched.length)) = some 0 := by decide

theorem test_witness_StepKeepsMemoryCanonical :
    (three busyEngine [.bufWrite 2 3 5]).memWf ∧ (after (step (three busyEngine [.bufWrite 2 3 5])) id).isSome = true := by
  unfold State.memWf; decide

/-- A busy instance that satisfies the invariant, and its host's duty; and a step it takes. -/
theorem test_witness_StepKeepsTheInvariant :
    ((one busyEngine).setSched [.engine 0]).Inv ∧
    (after (step ((one busyEngine).setSched [.engine 0])) id).isSome = true := by
  refine ⟨?_, by decide⟩
  intro e he
  have he' : e = busyEngine := by simpa [State.engines, State.setSched, one, State.setEng, State.reset] using he
  subst he'
  exact acceptCommand_inv rfl (test_idle_inv .two idleEngine rfl rfl rfl rfl rfl)

theorem test_witness_ReachableStatesSatisfyR38 :
    (∀ e ∈ (three (Engine.atReset 0x1000 (Memory.ofList digits)) []).engines, e.atResetValues ∧ e.buf.wf = true) ∧
    (after (Host.Core.run Sys2Proof.core 1 (State.reset.setSched [.bus (writeAccess 0 .cmd 24)])) (·.eng.status)) =
      some 0x26 := by
  unfold Engine.atResetValues; decide

theorem test_witness_BusyEngineNeverStops :
    ((one busyEngine).setSched [.engine 0]).Inv ∧ ((one busyEngine).setSched [.engine 0]).sched = [.engine 0] ∧
    ((one busyEngine).setSched [.engine 0]).engines[0]? = some busyEngine ∧ busyEngine.phase ≠ .idle ∧
    busyEngine.lenHonest := by
  refine ⟨test_witness_StepKeepsTheInvariant.1, rfl, rfl, by decide, ?_⟩
  unfold Engine.lenHonest; decide

/-- The range of two bytes, with a byte listed past its end in the other buffer, over two engine steps. -/
theorem test_witness_BytesOutsideTheRangeNeverMatter :
    ((one (acceptCommand (Config.defaults "") 8 twoBytes)).setSched
        (List.replicate 2 (.engine 0))).Inv ∧
    (acceptCommand (Config.defaults "") 8 twoBytes).phase ≠ .idle ∧
    (∀ a : Nat, opStart twoBytes ≤ a → (a : Int) ≤ opEnd twoBytes →
      (Memory.ofList [0x01, 0x02, 0x5A]).read a = twoBytes.buf.read a) ∧
    (after (Host.Core.run Sys2Proof.core 2 ((one (acceptCommand (Config.defaults "") 8 twoBytes)).setSched
        (List.replicate 2 (.engine 0)))) (fun t => t.eng.bit)) = some 1 := by
  refine ⟨?_, by decide, ?_, by decide⟩
  · intro e he
    have he' : e = acceptCommand (Config.defaults "") 8 twoBytes := by
      simpa [State.engines, State.setSched, one, State.setEng, State.reset, twoBytes] using he
    subst he'
    exact acceptCommand_inv rfl (test_idle_inv .two twoBytes rfl rfl rfl rfl rfl)
  · intro a _ h
    have h1 : opEnd twoBytes = 1 := by decide
    have h2 : a = 0 ∨ a = 1 := by omega
    rcases h2 with rfl | rfl <;> decide

theorem test_witness_covers : twoBytes.covers [0x01, 0x02] := by
  refine ⟨by decide, fun j h => ?_⟩
  have h2 : j = 0 ∨ j = 1 := by simp at h; omega
  rcases h2 with rfl | rfl <;> rfl

theorem test_witness_EngineComputesTheChecksum :
    ((one (acceptCommand (Config.defaults "") 8 twoBytes)).setSched (List.replicate 19 (.engine 0))).sched =
      List.replicate (9 * [0x01, 0x02].length + 1) (.engine (one twoBytes).left.length) ∧
    twoBytes.phase = .idle ∧ validate .two (opWidth 8) (opStart twoBytes) (opEnd twoBytes) (opLen twoBytes) = none ∧
    wselOfWidth (opWidth 8) = some .w8 ∧ WSel.w8.width = some 8 ∧ twoBytes.covers [0x01, 0x02] :=
  ⟨rfl, rfl, by decide, by decide, rfl, test_witness_covers⟩

/-- Nine engine steps of instance 1 with a host write and another instance's turn among them, and then the tenth: the range
is the one byte of V-E5, under `MIN_RANGE_LEN = 1`. -/
def interleaved : List Event :=
  [.engine 1, .engine 1, .bus (writeAccess 0x1000 .poly 0xE0), .engine 1, .engine 0, .engine 1, .reset 2, .engine 1,
    .engine 1, .engine 1, .engine 1, .engine 1]

/-- The same steps and the instance's last one. -/
def interleavedToEnd : List Event := interleaved ++ [.engine 1]

def oneByte : Engine := { twoBytes with buf := Memory.ofList [0x34], end_ := 0, len := 1 }

def oneByteState (evs : List Event) : State :=
  { three (acceptCommand { minRange := .one, xorOut := 0, msgOutOfBounds := "" } 8 oneByte) evs with cfg := { minRange := .one, xorOut := 0, msgOutOfBounds := "" } }

theorem test_witness_EveryInterleavingComputesTheChecksum :
    (∀ ev ∈ interleavedToEnd, ev.leavesCommand 1 = true) ∧ oneByte.phase = .idle ∧
    (oneByteState interleaved).engines[1]? = some (acceptCommand { minRange := .one, xorOut := 0, msgOutOfBounds := "" } 8 oneByte) ∧
    validate .one (opWidth 8) (opStart oneByte) (opEnd oneByte) (opLen oneByte) = none ∧
    interleaved.count (.engine 1) = 9 * 1 ∧ interleavedToEnd.count (.engine 1) = 9 * 1 + 1 ∧
    interleavedToEnd.getLast? = some (.engine 1) := by decide

theorem test_witness_oneByte_covers : oneByte.covers [0x34] := by
  refine ⟨by decide, fun j h => ?_⟩
  have h2 : j = 0 := by simp at h; omega
  subst h2; rfl

/-- Both runs answer a next state; the second leaves the value of V-E5. -/
theorem test_witness_interleaved_runs :
    (after (Host.Core.run Sys2Proof.core interleaved.length (oneByteState interleaved)) (fun t => t.sched.length)) = some 0 ∧
    (after (Host.Core.run Sys2Proof.core interleavedToEnd.length (oneByteState interleavedToEnd))
      (fun t => t.engines.map (·.result))) = some [0, 0xDF, 0] := by decide +kernel

theorem test_witness_HostCallReturnsComputeCRC :
    (three idleEngine []).windowsApart ∧ (three idleEngine []).eng.phase = .idle ∧
    (three idleEngine []).eng.bufHeld = false ∧
    (∃ ops cmd, hostPlan (Config.defaults "") digits 16 0xFFFF0000 0xA001 0 8 = .transactions digits ops cmd ∧
      (ops.take 2 ++ ops.drop 2).Perm ops) ∧
    validate .two 16 0 8 digits.length = none ∧ validate .two 24 0 8 digits.length = some .badWidth := by
  exact ⟨by decide, rfl, rfl, ⟨_, _, rfl, by rw [List.take_append_drop]⟩, by decide, by decide⟩

/-- Operands at the edges of the registers, and one step past them. -/
theorem test_witness_HostPlanFollowsItsOperands :
    0x7FFFFFFF < (List.replicate 0x80000000 (0 : Byte)).length ∧ digits.length ≤ 0x7FFFFFFF ∧
    ¬((0 : Int) ≤ 2 ^ 32 ∧ (2 ^ 32 : Int) < 2 ^ 32) ∧ (-(2 ^ 31) : Int) ≤ -2147483648 ∧ (2147483647 : Int) < 2 ^ 31 ∧
    ¬((-2147483649 : Int) ≥ -(2 ^ 31)) := by
  rw [List.length_replicate]; decide

/-- Indices at the edges of the registers, and an end index below the start index. -/
theorem test_witness_HostMapsItsOptionsOntoTheRegisters :
    bitsOption "16" = some .bits16 ∧ "16" = BitsOption.text .bits16 ∧ digits.length ≤ 0x7FFFFFFF ∧
    (-(2 ^ 31) : Int) ≤ 2147483647 ∧ (2147483647 : Int) < 2 ^ 31 ∧ (-(2 ^ 31) : Int) ≤ -2147483648 ∧
    (-2147483648 : Int) < 2 ^ 31 := by decide

/-- A command that fails and one that starts; a read of `STATUS` that closes the window; a reset that does. -/
theorem test_witness_BufferWindowRunsFromTheCommandToTheStatusRead :
    (one idleEngine).eng.phase = .idle ∧ (after (exec (hostWriteInstr .cmd 24) (one idleEngine)) (·.eng.bufHeld)) = some true ∧
    (after (exec (hostWriteInstr .cmd 8) (one idleEngine)) (·.eng.bufHeld)) = some true ∧
    (three { idleEngine with bufHeld := true, status := 0x02 } []).engines.map (·.bufHeld) = [false, true, false] ∧
    (after (step (three { idleEngine with bufHeld := true, status := 0x02 } [.bus (readAccess 0x1000 .status)]))
      (fun t => (t.engines.map (·.bufHeld), t.lastRead))) = some ([false, false, false], some 0x02) ∧
    (three busyEngine []).engines.map (·.bufHeld) = [false, true, false] ∧
    (after (step (three busyEngine [.reset 1])) (fun t => t.engines.map (·.bufHeld))) = some [false, false, false] := by
  decide

end Sys2Proof.Tests
end

section
/-! SUPPORT. The scope of an instruction and of a step: which instance a step runs its instruction on, and what it leaves
alone of the platform around it (R8, R12, R174); and what the host returns after a command (R123). -/
namespace Sys2Proof.Machine

/-! ## What an instruction leaves alone -/

/-- `t` has the `BUF` of the selected instance of `s`, and everything around that instance. -/
def State.keepsBufAndAround (s t : State) : Prop := t.eng.buf = s.eng.buf ∧ s.sameAround t

theorem State.keepsBufAndAround_refl (s : State) : s.keepsBufAndAround s := ⟨rfl, rfl, rfl, rfl, rfl, rfl⟩

/-- Replacing the selected instance by one with its `BUF` and its window address. -/
theorem State.keepsBufAndAround_setEng {s : State} {e : Engine} (hbuf : e.buf = s.eng.buf)
    (hbase : e.base = s.eng.base) : s.keepsBufAndAround (s.setEng e) := ⟨hbuf, rfl, rfl, rfl, rfl, hbase⟩

theorem command_keepsBufAndAround {v : Word} {s t : State} (h : command v s = .next t) : s.keepsBufAndAround t := by
  rcases command_cases h with ⟨-, rfl⟩ | ⟨-, rfl⟩
  · exact t.keepsBufAndAround_refl
  · obtain ⟨hbuf, hbase, -⟩ := acceptCommand_frame s.cfg v s.eng
    exact State.keepsBufAndAround_setEng hbuf hbase

theorem hostWrite_keepsBufAndAround {r : Reg} {v : Word} {s t : State} (h : hostWrite r v s = .next t) :
    s.keepsBufAndAround t := by
  rcases hostWrite_cases h with ⟨-, rfl⟩ | ⟨-, rfl⟩
  · exact t.keepsBufAndAround_refl
  · obtain ⟨hbuf, hbase, -⟩ := storeOperand_frame r v s.eng
    exact State.keepsBufAndAround_setEng hbuf hbase

theorem hostRead_keepsBufAndAround {r : Reg} {s t : State} (h : hostRead r s = .next t) : s.keepsBufAndAround t := by
  rw [hostRead_eq] at h
  cases h
  exact ⟨s.eng.afterRead_buf r, rfl, rfl, rfl, rfl, s.eng.afterRead_base r⟩

/-- A reduction keeps `BUF` and everything around the instance, whichever value it leaves in `CRC` (R136 to R138). -/
theorem reduction_keepsBufAndAround (s : State) (c : Word) :
    s.keepsBufAndAround (s.setEng { s.eng with crc := c }.advance) :=
  State.keepsBufAndAround_setEng (Engine.advance_buf _) (Engine.advance_base _)

/-- No instruction writes `BUF` or anything around the selected instance (R52, R174). -/
theorem exec_keepsBufAndAround {i : Instr} {s t : State} (h : exec i s = .next t) : s.keepsBufAndAround t := by
  rcases exec_cases h with
    ⟨v, hc, -⟩ | ⟨r, v, -, hw⟩ | ⟨r, hr⟩ | ⟨-, b, -, rfl⟩ | ⟨-, rfl⟩ | ⟨-, rfl⟩ | ⟨-, rfl⟩ | ⟨-, rfl⟩
  · exact command_keepsBufAndAround (hc.symm.trans h)
  · exact hostWrite_keepsBufAndAround (hw.symm.trans h)
  · exact hostRead_keepsBufAndAround (hr.symm.trans h)
  · exact State.keepsBufAndAround_setEng rfl rfl
  · exact reduction_keepsBufAndAround s _
  · exact reduction_keepsBufAndAround s _
  · exact reduction_keepsBufAndAround s _
  · exact State.keepsBufAndAround_setEng rfl rfl

/-- Settles O41: every case of `exec_cases` replaces the selected instance by one with its `BUF` and window address. -/
theorem noInstructionWritesMemoryOrOthers : Obligations.NoInstructionWritesMemoryOrOthers :=
  fun _ _ _ h => exec_keepsBufAndAround h

/-! ## What a step leaves alone -/

/-- A state with everything around the selected instance of `s` has the instances of `s`, but for that one. -/
theorem State.engines_of_sameAround {s t : State} (h : s.sameAround t) :
    t.engines = s.engines.set s.left.length t.eng := by
  obtain ⟨-, hleft, hright, -, -⟩ := h
  rw [← State.setEng_engines, State.engines, State.engines, hleft, hright]
  rfl

/-- The instance that an event without an instruction leaves behind has its window address. -/
theorem fetch_quiet_base {s t : State} (h : fetch s = .quiet t) :
    ∃ u e, s.turnOf u.left.length s.sched.tail u ∧ s.actor = some u.left.length ∧ t = u.setEng e ∧
      e.base = u.eng.base := by
  obtain ⟨u, e, hturn, hact, ht, he⟩ := fetch_quiet h
  refine ⟨u, e, hturn, hact, ht, ?_⟩
  rcases he with ⟨rfl, -⟩ | ⟨rfl, -⟩ | ⟨-, m, rfl, -⟩ <;> rfl

/-- Every step replaces the one instance it acts on by one with the same window address, and keeps the parameters (R8,
R174). -/
theorem step_replaces_actor {s t : State} (h : step s = .next t) :
    ∃ k e e', s.actor = some k ∧ s.engines[k]? = some e ∧ e'.base = e.base ∧ t.cfg = s.cfg ∧
      t.engines = s.engines.set k e' := by
  have key : ∃ u, s.turnOf u.left.length s.sched.tail u ∧ s.actor = some u.left.length ∧ u.sameAround t := by
    rcases step_cases h with ⟨i, u, hf, hex⟩ | hq
    · obtain ⟨hturn, hact, -⟩ := fetch_run hf
      exact ⟨u, hturn, hact, (exec_keepsBufAndAround hex).2⟩
    · obtain ⟨u, e, hturn, hact, rfl, hbase⟩ := fetch_quiet_base hq
      exact ⟨u, hturn, hact, rfl, rfl, rfl, rfl, hbase⟩
  obtain ⟨u, ⟨hengs, -, -, hcfg, -⟩, hact, haround⟩ := key
  have heng := State.engines_of_sameAround haround
  obtain ⟨hcfg', -, -, -, hbase⟩ := haround
  rw [hengs] at heng
  exact ⟨u.left.length, u.eng, t.eng, hact, hengs ▸ u.engines_getElem_selected, hbase, hcfg'.trans hcfg, heng⟩

/-- Replacing an instance by one with its window address keeps the list of window addresses. -/
theorem map_base_set {l : List Engine} {k : Nat} {e e' : Engine} (hk : l[k]? = some e) (hbase : e'.base = e.base) :
    (l.set k e').map Engine.base = l.map Engine.base := by
  obtain ⟨hlt, rfl⟩ := List.getElem?_eq_some_iff.1 hk
  rw [List.map_set, hbase, ← List.map_set, List.set_getElem_self]

/-- Settles O43: the instances after a step are those before it with the acting one replaced. -/
theorem otherInstancesAndParametersStay : Obligations.OtherInstancesAndParametersStay := by
  intro s t h
  obtain ⟨k, e, e', hact, hk, hbase, hcfg, hengs⟩ := step_replaces_actor h
  refine ⟨hcfg, hengs ▸ map_base_set hk hbase, fun j hj => ?_⟩
  have hne : k ≠ j := fun hkj => hj (hkj ▸ hact)
  rw [hengs, List.getElem?_set_ne hne]

/-! ## The instruction that a step runs -/

/-- An instance of the platform can be selected with the event taken off the list, and that is its turn. -/
theorem State.select_turnOf {s : State} {k : Nat} {e : Engine} (rest : List Event) (h : s.engines[k]? = some e) :
    ∃ t, (s.setSched rest).select k = some t ∧ s.turnOf k rest t ∧ t.eng = e := by
  obtain ⟨t, ht, he⟩ := State.select_of_getElem (s := s.setSched rest) h
  obtain ⟨hengs, hlen, -, hcfg, hsched, hread⟩ := State.select_eq ht
  exact ⟨t, ht, ⟨hengs, hlen, hsched, hcfg, hread⟩, he⟩

/-- The turn of an engine agent whose selector decodes to an instruction (R35). -/
theorem fetchEngine_of_decode {s : State} {i : Instr} (h : decodeFsm s.eng.selector = .instr i) :
    fetchEngine s = .run i s := by
  simp only [fetchEngine, h]

/-- A transaction whose word decodes to an instruction (R70). -/
theorem fetchTransaction_of_decode {a : Access} {s : State} {i : Instr}
    (h : decodeHbus (busWord s.eng.base a) = .instr i) : fetchTransaction a s = .run i s := by
  simp only [fetchTransaction, h]

/-- A 32-bit access in the window of an instance is a transaction there (R58, R70). -/
theorem fetchBus_of_select {a : Access} {s t : State} {k : Nat} (hbits : a.bits = 32)
    (hk : windowIndex s.engines a.addr = some k) (ht : s.select k = some t) : fetchBus a s = fetchTransaction a t := by
  simp only [fetchBus, hbits, if_true, hk, ht]

/-- The next event is the first of the list (R12; log entry 7). -/
theorem fetch_cons {s : State} {ev : Event} {rest : List Event} (h : s.sched = ev :: rest) :
    fetch s = fetchEvent ev (s.setSched rest) := by
  simp only [fetch, h]

/-- With nothing scheduled the turn is the selected instance's (log entry 7). -/
theorem fetch_nil {s : State} (h : s.sched = []) : fetch s = fetchEngine s := by
  simp only [fetch, h]

/-- The event of an engine's turn (R12, R35). -/
theorem fetchEvent_engine_of_select {s t : State} {k : Nat} (ht : s.select k = some t) :
    fetchEvent (.engine k) s = fetchEngine t := by
  simp only [fetchEvent, ht]

/-- Settles O8: the access reaches the instance of its window, where its word is decoded. -/
theorem stepRunsTheDecodedTransaction : Obligations.StepRunsTheDecodedTransaction := by
  intro s a rest k e i hs hbits hk he hd
  obtain ⟨t, ht, hturn, rfl⟩ := State.select_turnOf rest he
  have hf : fetch s = .run i t := by
    calc fetch s = fetchBus a (s.setSched rest) := fetch_cons hs
      _ = fetchTransaction a t := fetchBus_of_select hbits hk ht
      _ = .run i t := fetchTransaction_of_decode hd
  exact ⟨t, hturn, rfl, step_run hf⟩

/-- Settles O9: the engine agent's turn is decoded from the selector of the instance, scheduled or not. -/
theorem stepRunsTheSelectedEngineStep : Obligations.StepRunsTheSelectedEngineStep := by
  refine ⟨fun s rest k e i hs he hd => ?_, fun s i hs hd => ?_⟩
  · obtain ⟨t, ht, hturn, rfl⟩ := State.select_turnOf rest he
    have hf : fetch s = .run i t := by
      calc fetch s = fetchEvent (.engine k) (s.setSched rest) := fetch_cons hs
        _ = fetchEngine t := fetchEvent_engine_of_select ht
        _ = .run i t := fetchEngine_of_decode hd
    exact ⟨t, hturn, rfl, step_run hf⟩
  · exact step_run ((fetch_nil hs).trans (fetchEngine_of_decode hd))

/-! ## What the host returns -/

/-- `STATUS` after an error report carries its cause (R160, R163). -/
@[simp] theorem reasonOfStatus_statusError (r : Reason) : reasonOfStatus (statusError r) = some r := by cases r <;> rfl

theorem statusError_ne_statusSuccess (r : Reason) : statusError r ≠ statusSuccess := by cases r <;> decide

/-- After a success the host returns the rendered `RESULT` (R123, R144). -/
theorem hostReturn_statusSuccess (cfg : Config) (w : Nat) (v : Word) :
    hostReturn cfg w statusSuccess v = some (.ok (formatHex w (v.setWidth w))) := by
  simp only [hostReturn, if_true]

/-- After an error report the host returns the report of its cause (R123, R162). -/
theorem hostReturn_statusError (cfg : Config) (w : Nat) (v : Word) (r : Reason) :
    hostReturn cfg w (statusError r) v = some (.error (errorReport cfg r)) := by
  simp only [hostReturn, statusError_ne_statusSuccess, if_false, reasonOfStatus_statusError]

/-- While `STATUS` reports neither a success nor a cause the host returns nothing (R194). -/
theorem hostReturn_none (cfg : Config) (w : Nat) {status : Word} (v : Word) (hs : status ≠ statusSuccess)
    (hr : reasonOfStatus status = none) : hostReturn cfg w status v = none := by
  simp only [hostReturn, hs, if_false, hr]

/-- Settles O56: the seven values of `STATUS` are the success, the report of each cause, the command in progress, and the
cleared register. -/
theorem hostReturnsTheResultOrTheMessage : Obligations.HostReturnsTheResultOrTheMessage :=
  fun cfg w v =>
    ⟨hostReturn_statusSuccess cfg w v, hostReturn_statusError cfg w v .endBeforeStart,
      hostReturn_statusError cfg w v .spanTooShort, hostReturn_statusError cfg w v .badWidth,
      hostReturn_statusError cfg w v .outOfBounds, hostReturn_none cfg w v (by decide) rfl,
      hostReturn_none cfg w v (by decide) rfl⟩

end Sys2Proof.Machine
end

section
/-! SUPPORT. The engine steps and the commands one by one: what each leaves in the sequencer, and what it leaves alone
(R100, R135 to R139, R160). -/
namespace Sys2Proof.Machine

/-! ## The reduction steps -/

/-- A reduction before the eighth of a byte (R34, R136). -/
theorem reduceWith_bit (f : Word → Word → Word) {s : State} (h : s.eng.bit.toNat < 7) :
    reduceWith f s = .next (s.setEng { s.eng with crc := f s.eng.crc s.eng.poly, bit := s.eng.bit + 1 }) :=
  congrArg (Host.Outcome.next <| s.setEng ·)
    (Engine.advance_bit (e := { s.eng with crc := f s.eng.crc s.eng.poly }) h)

/-- The eighth reduction of the last byte (R36, R136). -/
theorem reduceWith_finish (f : Word → Word → Word) {s : State} (h : s.eng.bit.toNat = 7)
    (hend : (s.eng.idx.toNat : Int) = opEnd s.eng) :
    reduceWith f s = .next (s.setEng { s.eng with crc := f s.eng.crc s.eng.poly, bit := 0, phase := .finish }) :=
  congrArg (Host.Outcome.next <| s.setEng ·)
    (Engine.advance_finish (e := { s.eng with crc := f s.eng.crc s.eng.poly }) h.not_lt hend)

/-- The eighth reduction of another byte (R36, R136). -/
theorem reduceWith_next (f : Word → Word → Word) {s : State} (h : s.eng.bit.toNat = 7)
    (hend : (s.eng.idx.toNat : Int) ≠ opEnd s.eng) :
    reduceWith f s = .next (s.setEng
      { s.eng with crc := f s.eng.crc s.eng.poly, bit := 0, idx := s.eng.idx + 1, phase := .xorByte }) :=
  congrArg (Host.Outcome.next <| s.setEng ·)
    (Engine.advance_next (e := { s.eng with crc := f s.eng.crc s.eng.poly }) h.not_lt hend)

/-- Settles O36: the three cases of a reduction, with the reducer of width 8. -/
theorem reduce8StepReduces : Obligations.Reduce8StepReduces :=
  fun _ => ⟨reduceWith_bit crc8Reducer, reduceWith_finish crc8Reducer, reduceWith_next crc8Reducer⟩

/-- Settles O37: the three cases of a reduction, with the reducer of width 16. -/
theorem reduce16StepReduces : Obligations.Reduce16StepReduces :=
  fun _ => ⟨reduceWith_bit crc16Reducer, reduceWith_finish crc16Reducer, reduceWith_next crc16Reducer⟩

/-- Settles O38: the three cases of a reduction, with the reducer of width 32. -/
theorem reduce32StepReduces : Obligations.Reduce32StepReduces :=
  fun _ => ⟨reduceWith_bit crc32Reducer, reduceWith_finish crc32Reducer, reduceWith_next crc32Reducer⟩

/-! ## The frame of the engine steps -/

/-- `STEP_XOR_BYTE` that completes has read a byte (R50, R135). -/
theorem exec_stepXorByte_next {s t : State} (h : exec .stepXorByte s = .next t) :
    ∃ b, t = s.setEng { s.eng with crc := s.eng.crc ^^^ opByte b, bit := 0, phase := .reduce } := by
  change execStepXorByte s = .next t at h
  unfold execStepXorByte at h
  split at h
  · next b _ => exact ⟨b, (Host.Outcome.next.inj h).symm⟩
  · cases h

/-- A step of the engine agent (R135 to R139). -/
def isEngineStep (i : Instr) : Prop :=
  i = .stepXorByte ∨ i = .stepReduce8 ∨ i = .stepReduce16 ∨ i = .stepReduce32 ∨ i = .stepFinish

/-- The selector chooses engine steps only, and `STEP_FINISH` in `PHASE = FINISH` only (R75). -/
theorem selector_isEngineStep {e : Engine} {i : Instr} (h : decodeFsm e.selector = .instr i) :
    isEngineStep i ∧ (i = .stepFinish → e.phase = .finish) := by
  rcases selector_cases h with ⟨-, rfl⟩ | ⟨-, -, rfl⟩ | ⟨-, -, rfl⟩ | ⟨-, -, rfl⟩ | ⟨hp, rfl⟩
  · exact ⟨.inl rfl, nofun⟩
  · exact ⟨.inr (.inl rfl), nofun⟩
  · exact ⟨.inr (.inr (.inl rfl)), nofun⟩
  · exact ⟨.inr (.inr (.inr (.inl rfl))), nofun⟩
  · exact ⟨.inr (.inr (.inr (.inr rfl))), fun _ => hp⟩

/-- Everything an engine step can do: take a byte, reduce `CRC` and advance the sequencer, or finish. -/
theorem engineStep_cases {i : Instr} {s t : State} (hi : isEngineStep i) (hex : exec i s = .next t) :
    (i = .stepXorByte ∧ ∃ b, t = s.setEng { s.eng with crc := s.eng.crc ^^^ opByte b, bit := 0, phase := .reduce }) ∨
    (i ≠ .stepXorByte ∧ i ≠ .stepFinish ∧ ∃ c, t = s.setEng { s.eng with crc := c }.advance) ∨
    (i = .stepFinish ∧ t = s.setEng { s.eng with
      result := finishValue s.cfg s.eng.wsel s.eng.crc, status := statusSuccess, phase := .idle }) := by
  rcases hi with rfl | rfl | rfl | rfl | rfl
  · exact .inl ⟨rfl, exec_stepXorByte_next hex⟩
  · cases hex; exact .inr (.inl ⟨nofun, nofun, _, rfl⟩)
  · cases hex; exact .inr (.inl ⟨nofun, nofun, _, rfl⟩)
  · cases hex; exact .inr (.inl ⟨nofun, nofun, _, rfl⟩)
  · cases hex; exact .inr (.inr ⟨rfl, rfl⟩)

/-- What every engine step leaves of its instance: the operand registers, `WSEL`, `BUF` and the mark of R196 (R29, R52). -/
structure Engine.OperandsKept (e e' : Engine) : Prop where
  regs : ∀ r, r ≠ .status → r ≠ .result → e'.readReg r = e.readReg r
  wsel : e'.wsel = e.wsel
  bytes : e.sameBuf e'
  held : e'.bufHeld = e.bufHeld

/-- The steps that replace nothing but `STATUS`, `RESULT`, `PHASE`, `CRC`, `IDX` and `BIT`. -/
theorem Engine.operandsKept_of_eq {e e' : Engine} {st res c i : Word} {b : BitVec 3} {p : Phase}
    (h : e' = { e with status := st, result := res, phase := p, crc := c, idx := i, bit := b }) :
    e.OperandsKept e' := by
  subst h
  refine ⟨fun r hs hr => ?_, rfl, fun _ => rfl, rfl⟩
  cases r with
  | status => exact absurd rfl hs
  | result => exact absurd rfl hr
  | _ => rfl

/-- The sequencer's advance after a new `CRC` (R136). -/
theorem Engine.advance_operandsKept (e : Engine) (c : Word) : e.OperandsKept { e with crc := c }.advance := by
  obtain ⟨b, i, p, h⟩ := Engine.advance_eq { e with crc := c }
  exact Engine.operandsKept_of_eq h

/-- Every engine step leaves the operands of its instance, and the last value read (R29, R52). -/
theorem engineStep_operandsKept {i : Instr} {s t : State} (hi : isEngineStep i) (hex : exec i s = .next t) :
    s.eng.OperandsKept t.eng ∧ t.lastRead = s.lastRead := by
  rcases engineStep_cases hi hex with ⟨-, b, rfl⟩ | ⟨-, -, c, rfl⟩ | ⟨-, rfl⟩
  · exact ⟨Engine.operandsKept_of_eq rfl, rfl⟩
  · exact ⟨s.eng.advance_operandsKept c, rfl⟩
  · exact ⟨Engine.operandsKept_of_eq rfl, rfl⟩

/-- `STATUS` and `RESULT` are the same in both. -/
def Engine.sameOutcome (e e' : Engine) : Prop := e'.status = e.status ∧ e'.result = e.result

/-- An engine step other than `STEP_FINISH` leaves `STATUS` and `RESULT` (R27, R28). -/
theorem engineStep_sameOutcome {i : Instr} {s t : State} (hi : isEngineStep i) (hne : i ≠ .stepFinish)
    (hex : exec i s = .next t) : s.eng.sameOutcome t.eng := by
  rcases engineStep_cases hi hex with ⟨-, b, rfl⟩ | ⟨-, -, c, rfl⟩ | ⟨hfin, -⟩
  · exact ⟨rfl, rfl⟩
  · exact ⟨Engine.advance_status _, Engine.advance_result _⟩
  · exact absurd hfin hne

/-- Settles O40: the frame common to the five steps, and what single steps leave besides. -/
theorem engineStepFrame : Obligations.EngineStepFrame := by
  intro s t i hi hex
  obtain ⟨⟨hregs, hwsel, hbytes, hheld⟩, hread⟩ := engineStep_operandsKept hi hex
  refine ⟨hregs, fun hne => engineStep_sameOutcome hi hne hex, ?_, ?_, hwsel, hbytes, hheld,
    (exec_keepsBufAndAround hex).2, hread⟩
  · rintro rfl
    cases hex
    exact ⟨rfl, rfl, rfl⟩
  · rintro rfl
    obtain ⟨b, rfl⟩ := exec_stepXorByte_next hex
    rfl

/-! ## The frame of the commands -/

/-- What an accepted command leaves of the operand registers, and of the hidden state if none starts (R100, R163). -/
theorem acceptCommand_operands {e : Engine} (cfg : Config) (v : Word) (hidle : e.phase = .idle) :
    (acceptCommand cfg v e).init = e.init ∧ (acceptCommand cfg v e).poly = e.poly ∧
      (acceptCommand cfg v e).start = e.start ∧ (acceptCommand cfg v e).end_ = e.end_ ∧
      (acceptCommand cfg v e).len = e.len ∧
      ((acceptCommand cfg v e).phase = e.phase → e.sameHidden (acceptCommand cfg v e)) := by
  rcases acceptCommand_cases cfg v e with ⟨r, -, hr⟩ | ⟨x, -, -, hx⟩
  · rw [hr]
    exact ⟨rfl, rfl, rfl, rfl, rfl, fun _ => ⟨rfl, rfl, rfl, rfl, rfl⟩⟩
  · rw [hx, hidle]
    exact ⟨rfl, rfl, rfl, rfl, rfl, nofun⟩

/-- Settles O29: a command while busy changes nothing, and one while idle is the accepting step. -/
theorem commandFrame : Obligations.CommandFrame := by
  intro s t v hex
  rw [exec_command] at hex
  obtain ⟨hbuf, haround⟩ := command_keepsBufAndAround hex
  have hbytes : s.eng.sameBuf t.eng := fun a => by rw [hbuf]
  rcases command_cases hex with ⟨hbusy, rfl⟩ | ⟨hidle, rfl⟩
  · exact ⟨rfl, rfl, rfl, rfl, rfl, hbytes, haround, rfl, fun _ => ⟨rfl, rfl, rfl, rfl, rfl⟩,
      fun hidle => absurd hidle hbusy, fun _ => rfl⟩
  · obtain ⟨hinit, hpoly, hstart, hend, hlen, hhidden⟩ := acceptCommand_operands s.cfg v hidle
    obtain ⟨-, -, -, hheld⟩ := acceptCommand_frame s.cfg v s.eng
    exact ⟨hinit, hpoly, hstart, hend, hlen, hbytes, haround, rfl, hhidden, fun _ => hheld,
      fun hbusy => absurd hidle hbusy⟩

/-- The fields of an error report's `STATUS`, read back (R27, R76, R160). -/
theorem statusError_fields (r : Reason) :
    statusDone (statusError r) = true ∧ statusBusy (statusError r) = false ∧
      statusErr (statusError r) = r.kind.code ∧ statusReason (statusError r) = r.code := by
  cases r <;> decide

/-- Settles O27: the four values by evaluation, their fields by cause. -/
theorem errorCausesHaveTheirStatus : Obligations.ErrorCausesHaveTheirStatus :=
  ⟨⟨rfl, rfl⟩, ⟨rfl, rfl⟩, ⟨rfl, rfl⟩, ⟨rfl, rfl⟩, statusError_fields⟩

end Sys2Proof.Machine
end

section
/-! SUPPORT. Who writes `STATUS` and `RESULT`: a command accepted while idle, `STEP_FINISH`, and reset (R27, R28, R37, R190). -/
namespace Sys2Proof.Machine

/-- `STATUS` or `RESULT` differs. -/
def Engine.newOutcome (e e' : Engine) : Prop := e'.status ≠ e.status ∨ e'.result ≠ e.result

theorem Engine.sameOutcome.not_new {e e' : Engine} (h : e.sameOutcome e') : ¬ e.newOutcome e' :=
  fun hnew => hnew.elim (· h.1) (· h.2)

/-- A command that writes `STATUS` or `RESULT` was accepted while idle, and has cleared `RESULT` (R100). -/
theorem command_newOutcome {v : Word} {s t : State} (hex : command v s = .next t) (hnew : s.eng.newOutcome t.eng) :
    s.eng.phase = .idle ∧ t.eng.result = 0 := by
  rcases command_cases hex with ⟨-, rfl⟩ | ⟨hidle, rfl⟩
  · exact absurd hnew (Engine.sameOutcome.not_new ⟨rfl, rfl⟩)
  · obtain ⟨-, -, hresult, -⟩ := acceptCommand_frame s.cfg v s.eng
    exact ⟨hidle, hresult⟩

/-- A host write of another register leaves `STATUS` and `RESULT` (R104 to R110). -/
theorem hostWrite_sameOutcome {r : Reg} {v : Word} {s t : State} (hex : hostWrite r v s = .next t) :
    s.eng.sameOutcome t.eng := by
  rcases hostWrite_cases hex with ⟨-, rfl⟩ | ⟨-, rfl⟩
  · exact ⟨rfl, rfl⟩
  · obtain ⟨-, -, hstatus, hresult, -⟩ := storeOperand_frame r v s.eng
    exact ⟨hstatus, hresult⟩

/-- A host read leaves `STATUS` and `RESULT` (R57). -/
theorem hostRead_sameOutcome {r : Reg} {s t : State} (hex : hostRead r s = .next t) : s.eng.sameOutcome t.eng := by
  rw [hostRead_eq] at hex
  cases hex
  exact ⟨s.eng.afterRead_status r, s.eng.afterRead_result r⟩

/-- An engine step that writes `STATUS` or `RESULT` is `STEP_FINISH`, and reports a success (R139). -/
theorem engineStep_newOutcome {i : Instr} {s t : State} (hi : isEngineStep i) (hex : exec i s = .next t)
    (hnew : s.eng.newOutcome t.eng) : i = .stepFinish ∧ t.eng.status = statusSuccess := by
  by_cases hfin : i = .stepFinish
  · subst hfin
    cases hex
    exact ⟨rfl, rfl⟩
  · exact absurd hnew (engineStep_sameOutcome hi hfin hex).not_new

/-- A host transaction that writes `STATUS` or `RESULT` is a write of `CMD` while idle (R37, R100). -/
theorem transaction_newOutcome {write : Bool} {r : Reg} {v : Word} {s t : State}
    (hex : exec (if write then hostWriteInstr r v else hostReadInstr r) s = .next t)
    (hnew : s.eng.newOutcome t.eng) : write = true ∧ r = .cmd ∧ s.eng.phase = .idle ∧ t.eng.result = 0 := by
  cases write with
  | false => exact absurd hnew (hostRead_sameOutcome ((exec_hostRead r s).symm.trans hex)).not_new
  | true =>
    by_cases hr : r = .cmd
    · subst hr
      exact ⟨rfl, rfl, command_newOutcome ((exec_command v s).symm.trans hex) hnew⟩
    · exact absurd hnew (hostWrite_sameOutcome ((exec_hostWrite r v s hr).symm.trans hex)).not_new

/-- The instructions that write `STATUS` or `RESULT` (R27, R28, R37). -/
theorem exec_newOutcome {i : Instr} {s t : State} (hex : exec i s = .next t) (hnew : s.eng.newOutcome t.eng) :
    (s.eng.phase = .idle ∧ t.eng.result = 0 ∧ ((∃ v, i = .wrCmd v) ∨ i = .crc8 ∨ i = .crc16 ∨ i = .crc32)) ∨
      (i = .stepFinish ∧ t.eng.status = statusSuccess) := by
  rcases exec_cases hex with
    ⟨v, hc, hi⟩ | ⟨r, v, -, hw⟩ | ⟨r, hr⟩ | ⟨rfl, -⟩ | ⟨rfl, -⟩ | ⟨rfl, -⟩ | ⟨rfl, -⟩ | ⟨rfl, -⟩
  · obtain ⟨hidle, hresult⟩ := command_newOutcome (hc.symm.trans hex) hnew
    exact .inl ⟨hidle, hresult, hi⟩
  · exact absurd hnew (hostWrite_sameOutcome (hw.symm.trans hex)).not_new
  · exact absurd hnew (hostRead_sameOutcome (hr.symm.trans hex)).not_new
  · exact .inr (engineStep_newOutcome (.inl rfl) hex hnew)
  · exact .inr (engineStep_newOutcome (.inr (.inl rfl)) hex hnew)
  · exact .inr (engineStep_newOutcome (.inr (.inr (.inl rfl))) hex hnew)
  · exact .inr (engineStep_newOutcome (.inr (.inr (.inr (.inl rfl)))) hex hnew)
  · exact .inr (engineStep_newOutcome (.inr (.inr (.inr (.inr rfl)))) hex hnew)

/-- The steps with an instruction that write `STATUS` or `RESULT` of their instance: a write of `CMD` while idle, and the
engine's turn in `FINISH`. -/
theorem step_run_newOutcome {i : Instr} {s u t : State} (hf : fetch s = .run i u) (hex : exec i u = .next t)
    (hnew : u.eng.newOutcome t.eng) :
    (u.eng.phase = .idle ∧ t.eng.result = 0 ∧
      ∃ a rest, s.sched = .bus a :: rest ∧ a.write = true ∧ a.addr = u.eng.base) ∨
    (u.eng.phase = .finish ∧ t.eng.status = statusSuccess ∧ s.actor = some u.left.length ∧
      (s.sched = [] ∨ ∃ rest, s.sched = .engine u.left.length :: rest)) := by
  rcases fetch_run_event hf with ⟨hsched, hd⟩ | ⟨a, rest, r, hsched, haddr, rfl⟩
  · obtain ⟨hi, hphase⟩ := selector_isEngineStep hd
    obtain ⟨hfin, hstatus⟩ := engineStep_newOutcome hi hex hnew
    obtain ⟨-, hactor, -⟩ := fetch_run hf
    exact .inr ⟨hphase hfin, hstatus, hactor, hsched⟩
  · obtain ⟨hwrite, rfl, hidle, hresult⟩ := transaction_newOutcome hex hnew
    exact .inl ⟨hidle, hresult, a, rest, hsched, hwrite, haddr⟩

/-- An event without an instruction that writes `STATUS` or `RESULT` of its instance is its reset (R190). -/
theorem step_quiet_newOutcome {s t : State} (hq : fetch s = .quiet t) :
    ∃ u e, s.turnOf u.left.length s.sched.tail u ∧ t = u.setEng e ∧
      (u.eng.newOutcome e →
        e.status = 0 ∧ e.result = 0 ∧ ∃ rest, s.sched = .reset u.left.length :: rest) := by
  obtain ⟨u, e, hturn, -, ht, he⟩ := fetch_quiet hq
  refine ⟨u, e, hturn, ht, fun hnew => ?_⟩
  rcases he with ⟨rfl, -⟩ | ⟨rfl, hsched⟩ | ⟨-, m, rfl, -⟩
  · exact absurd hnew (Engine.sameOutcome.not_new ⟨rfl, rfl⟩)
  · exact ⟨rfl, rfl, _, hsched⟩
  · exact absurd hnew (Engine.sameOutcome.not_new ⟨rfl, rfl⟩)

/-- Settles O42: an instance with another `STATUS` or `RESULT` is the one that acted, and its step is one of the three. -/
theorem onlyCommandsFinishAndResetWriteStatusAndResult :
    Obligations.OnlyCommandsFinishAndResetWriteStatusAndResult := by
  refine ⟨fun i s t => exec_newOutcome, fun s t k e e' hstep he he' (hnew : e.newOutcome e') => ?_⟩
  have hself : ¬ e.newOutcome e := Engine.sameOutcome.not_new ⟨rfl, rfl⟩
  rcases step_cases hstep with ⟨i, u, hf, hex⟩ | hq
  · obtain ⟨⟨hengs, -⟩, -, -⟩ := fetch_run hf
    have ht : t.engines = (u.setEng t.eng).engines := by
      rw [State.setEng_engines, State.engines_of_sameAround (exec_keepsBufAndAround hex).2]
    rcases engines_after_turn hengs ht he he' with ⟨rfl, rfl, rfl⟩ | rfl
    · exact (step_run_newOutcome hf hex hnew).imp_right .inl
    · exact absurd hnew hself
  · obtain ⟨u, x, ⟨hengs, -⟩, rfl, hreset⟩ := step_quiet_newOutcome hq
    rcases engines_after_turn hengs rfl he he' with ⟨rfl, rfl, rfl⟩ | rfl
    · exact .inr (.inr (hreset hnew))
    · exact absurd hnew hself

end Sys2Proof.Machine
end

section
/-! SUPPORT. What every step of the platform keeps of its instances: the invariant of R31 to R34 and R38. -/
namespace Sys2Proof.Machine

/-! ## Host transactions and the invariant -/

/-- The invariant of an idle instance speaks of `STATUS`, `RESULT`, `WSEL` and the form of `BUF` only. -/
theorem Engine.Inv.of_idle {cfg : Config} {e e' : Engine} (h : e.Inv cfg) (hidle : e.phase = .idle)
    (hphase : e'.phase = e.phase) (hstatus : e'.status = e.status) (hresult : e'.result = e.result)
    (hwsel : e'.wsel = e.wsel) (hbuf : e'.buf.wf = true) : e'.Inv cfg where
  status_legal := hstatus ▸ h.status_legal
  busy_iff := by rw [hstatus, hphase]; exact h.busy_iff
  too_short := by rw [hstatus]; exact h.too_short
  selector_legal := hwsel ▸ h.selector_legal
  result_zero := by rw [hstatus, hresult]; exact h.result_zero
  result_lt := by rw [hstatus, hresult, hwsel]; exact h.result_lt
  busy := fun hbusy => absurd (hphase.trans hidle) hbusy
  buf_wf := hbuf

/-- A stored operand keeps the invariant of an idle instance (R104 to R110). -/
theorem storeOperand_inv {cfg : Config} {e : Engine} (r : Reg) (v : Word) (hidle : e.phase = .idle) (h : e.Inv cfg) :
    (e.storeOperand r v).Inv cfg := by
  obtain ⟨hbuf, -, hstatus, hresult, hphase, hwsel, -⟩ := storeOperand_frame r v e
  exact h.of_idle hidle hphase hstatus hresult hwsel (hbuf ▸ h.buf_wf)

/-- A read keeps the invariant: busy it changes nothing, and idle it closes at most the window of R196. -/
theorem afterRead_inv {cfg : Config} {e : Engine} (r : Reg) (h : e.Inv cfg) : (e.afterRead r).Inv cfg := by
  by_cases hidle : e.phase = .idle
  · exact h.of_idle hidle (e.afterRead_phase r) (e.afterRead_status r) (e.afterRead_result r) (e.afterRead_wsel r)
      (e.afterRead_buf r ▸ h.buf_wf)
  · rw [e.afterRead_busy r (h.busy_iff.2 hidle)]
    exact h

theorem command_inv {v : Word} {s t : State} (hex : command v s = .next t) (h : s.eng.Inv s.cfg) :
    t.eng.Inv s.cfg := by
  rcases command_cases hex with ⟨-, rfl⟩ | ⟨hidle, rfl⟩
  · exact h
  · exact acceptCommand_inv hidle h

theorem hostWrite_inv {r : Reg} {v : Word} {s t : State} (hex : hostWrite r v s = .next t) (h : s.eng.Inv s.cfg) :
    t.eng.Inv s.cfg := by
  rcases hostWrite_cases hex with ⟨-, rfl⟩ | ⟨hidle, rfl⟩
  · exact h
  · exact storeOperand_inv r v hidle h

/-- A host transaction keeps the invariant of its instance (R100 to R118). -/
theorem transaction_inv {w : BitVec 38} {i : Instr} {s t : State} (hd : decodeHbus w = .instr i)
    (hex : exec i s = .next t) (h : s.eng.Inv s.cfg) : t.eng.Inv s.cfg := by
  obtain ⟨r, -, rfl⟩ := decodeHbus_instr hd
  split at hex
  · by_cases hr : r = .cmd
    · subst hr
      exact command_inv ((exec_command _ s).symm.trans hex) h
    · exact hostWrite_inv ((exec_hostWrite r _ s hr).symm.trans hex) h
  · rw [exec_hostRead, hostRead_eq] at hex
    cases hex
    exact afterRead_inv r h

/-! ## Engine steps and the invariant -/

/-- A byte of `BUF` is below every `2^w`, so XORing it in keeps `CRC` below `2^w` (R31, R135). -/
theorem xor_opByte_lt {x : WSel} {w : Nat} {c : Word} (hw : x.width = some w) (hc : c.toNat < 2 ^ w) (b : Byte) :
    (c ^^^ opByte b).toNat < 2 ^ w := by
  have hb : (opByte b).toNat < 2 ^ w :=
    calc (opByte b).toNat ≤ b.toNat := by
          rw [opByte, BitVec.toNat_setWidth]; exact Nat.mod_le _ _
      _ < 2 ^ 8 := b.isLt
      _ ≤ 2 ^ w := Nat.pow_le_pow_right (by decide) (WSel.width_bounds hw).1
  rw [BitVec.toNat_xor]
  exact Nat.xor_lt_two_pow hc hb

/-- Taking a byte keeps the invariant of an instance in `XOR_BYTE` (R135). -/
theorem xorByte_inv {cfg : Config} {e : Engine} (b : Byte) (hp : e.phase = .xorByte) (h : e.Inv cfg) :
    Engine.Inv cfg { e with crc := e.crc ^^^ opByte b, bit := 0, phase := .reduce } := by
  have hphase : e.phase ≠ .idle := by simp [hp]
  have hbusy := h.busy hphase
  exact
    { h with
      busy_iff := iff_of_true (h.busy_iff.2 hphase) (by simp)
      busy := fun _ =>
        { hbusy with
          crc_lt := fun w hw => xor_opByte_lt hw (hbusy.crc_lt w hw) b
          bit_zero := fun _ => rfl
          finish_at_end := fun hf => nomatch hf } }

/-- Finishing keeps the invariant: the instance is idle again, with a masked `RESULT` (R28, R139). -/
theorem finish_inv {cfg : Config} {e : Engine} (h : e.Inv cfg) :
    Engine.Inv cfg { e with result := finishValue cfg e.wsel e.crc, status := statusSuccess, phase := .idle } where
  status_legal := show statusSuccess ∈ legalStatus by decide
  busy_iff := show statusBusy statusSuccess = true ↔ Phase.idle ≠ .idle by decide
  too_short := fun hs => absurd hs (show statusSuccess ≠ 0x26 by decide)
  selector_legal := h.selector_legal
  result_zero := fun hs => absurd rfl hs
  result_lt := fun _ _ hw => WSel.and_mask_lt hw _
  busy := fun hbusy => absurd rfl hbusy
  buf_wf := h.buf_wf

/-- A reduction with the reducer of the selector keeps the invariant of its instance (R136 to R138). -/
theorem reduceWith_inv {x : WSel} {s t : State} (hp : s.eng.phase = .reduce) (hx : s.eng.wsel = x)
    (hex : reduceWith x.reducer s = .next t) (h : s.eng.Inv s.cfg) : t.eng.Inv s.cfg := by
  subst hx
  rw [reduceWith_eq] at hex
  cases hex
  exact advance_inv hp h fun w hw => WSel.reducer_lt hw _ _

/-- The step that the selector chooses keeps the invariant of its instance (R135 to R139). -/
theorem engineStep_inv {i : Instr} {s t : State} (hd : decodeFsm s.eng.selector = .instr i)
    (hex : exec i s = .next t) (h : s.eng.Inv s.cfg) : t.eng.Inv s.cfg := by
  rcases selector_cases hd with ⟨hp, rfl⟩ | ⟨hp, hw, rfl⟩ | ⟨hp, hw, rfl⟩ | ⟨hp, hw, rfl⟩ | ⟨-, rfl⟩
  · obtain ⟨b, -, rfl⟩ := exec_stepXorByte_next hex
    exact xorByte_inv b hp h
  · exact reduceWith_inv (x := .w8) hp hw hex h
  · exact reduceWith_inv (x := .w16) hp hw hex h
  · exact reduceWith_inv (x := .w32) hp hw hex h
  · cases hex
    exact finish_inv h

/-! ## Steps and runs -/

/-- The platform of an instance's turn has the instances of the platform, and so their invariants. -/
theorem State.Inv.of_turnOf {s u : State} {k : Nat} {rest : List Event} (h : s.Inv) (hturn : s.turnOf k rest u) :
    u.Inv := by
  obtain ⟨hengs, -, -, hcfg, -⟩ := hturn
  rwa [State.Inv, hengs, hcfg]

theorem State.Inv.eng {s : State} (h : s.Inv) : s.eng.Inv s.cfg := h s.eng (by simp [State.engines])

/-- If only the selected instance differs, its invariant is all there is to show. -/
theorem State.Inv.of_sameAround {s t : State} (h : s.Inv) (haround : s.sameAround t) (heng : t.eng.Inv s.cfg) :
    t.Inv := by
  intro e he
  rw [State.engines_of_sameAround haround] at he
  rw [haround.1]
  rcases List.mem_or_eq_of_mem_set he with hmem | rfl
  · exact h e hmem
  · exact heng

/-- Every step keeps the invariant: the acting instance is left by a host transaction, by its engine's step, by its reset
or by a change of its `BUF`. -/
theorem step_inv {s t : State} (hinv : s.Inv) (hstep : step s = .next t) : t.Inv := by
  rcases step_cases hstep with ⟨i, u, hf, hex⟩ | hq
  · obtain ⟨hturn, -, hd⟩ := fetch_run hf
    have hu := hinv.of_turnOf hturn
    refine hu.of_sameAround (exec_keepsBufAndAround hex).2 ?_
    rcases hd with hd | ⟨w, hd⟩
    · exact engineStep_inv hd hex hu.eng
    · exact transaction_inv hd hex hu.eng
  · obtain ⟨u, e, hturn, -, rfl, he⟩ := fetch_quiet hq
    have hu := hinv.of_turnOf hturn
    rcases he with ⟨rfl, -⟩ | ⟨rfl, -⟩ | ⟨⟨hidle, -⟩, m, rfl, hm⟩
    · exact hu
    · exact hu.of_sameAround ⟨rfl, rfl, rfl, rfl, rfl⟩ (doReset_inv hu.eng.buf_wf)
    · exact hu.of_sameAround ⟨rfl, rfl, rfl, rfl, rfl⟩
        (hu.eng.of_idle hidle rfl rfl rfl rfl (hm hu.eng.buf_wf))

/-- Settles O47, by the acting instance's invariant after each kind of step (`step_inv`). -/
theorem stepKeepsTheInvariant : Obligations.StepKeepsTheInvariant := fun _ _ => step_inv

/-- The invariant holds along every run (R38). -/
theorem run_inv {s t : State} {n : Nat} (h : s.Inv) (hrun : Host.Core.run Sys2Proof.core n s = .next t) : t.Inv := by
  induction n generalizing s with
  | zero => cases hrun; exact h
  | succ n ih =>
    obtain ⟨u, hu, hrest⟩ := run_succ_cases hrun
    exact ih (step_inv h hu) hrest

/-- An instance at its reset values satisfies the invariant, whether or not the window of R196 is open (R40). -/
theorem Engine.atResetValues.inv {cfg : Config} {e : Engine} (h : e.atResetValues) (hbuf : e.buf.wf = true) :
    e.Inv cfg := by
  obtain ⟨-, -, -, -, -, -, hstatus, hresult, hphase, hwsel, -⟩ := h
  exact (doReset_inv hbuf).of_idle rfl hphase hstatus hresult hwsel hbuf

/-- What reset leaves of an instance is the table of R40, whatever it was doing. -/
theorem doReset_atResetValues (e : Engine) : e.doReset.atResetValues :=
  ⟨rfl, rfl, rfl, rfl, rfl, rfl, rfl, rfl, rfl, rfl, rfl, rfl, rfl⟩

/-- The one instance of `State.reset` is an instance just reset, with nothing in `BUF` (R40). -/
theorem reset_engines {e : Engine} (he : e ∈ State.reset.engines) : e = (Engine.atReset 0 []).doReset :=
  List.mem_singleton.1 he

/-- Settles O46: the instance of `State.reset` holds the values of R40. -/
theorem resetSatisfiesTheInvariant : Obligations.ResetSatisfiesTheInvariant := by
  intro e he
  obtain rfl := reset_engines he
  exact doReset_inv Memory.wf_nil

/-- The event of a reset (R190). -/
theorem fetchEvent_reset_of_select {s t : State} {k : Nat} (ht : s.select k = some t) :
    fetchEvent (.reset k) s = .quiet (t.setEng t.eng.doReset) := by
  simp only [fetchEvent, ht]

/-- Settles O15: the event of a reset replaces its instance by one just reset, with its `BUF` and its window. -/
theorem resetPutsEveryPieceAtItsValue : Obligations.ResetPutsEveryPieceAtItsValue := by
  refine ⟨fun e he => ?_, fun s rest k e hs he => ?_⟩
  · obtain rfl := reset_engines he
    exact doReset_atResetValues _
  · obtain ⟨t, ht, hturn, rfl⟩ := State.select_turnOf rest he
    have hf : fetch s = .quiet (t.setEng t.eng.doReset) := by
      rw [fetch_cons hs, fetchEvent_reset_of_select ht]
    exact ⟨t, t.eng.doReset, hturn, step_quiet hf, doReset_atResetValues t.eng, rfl, rfl⟩

/-! ## The values of `STATUS` -/

/-- (b) to (e) of R38 for each value of (f): what its fields are; and the value of a success is neither busy nor an
error. -/
theorem legalStatus_fields : ∀ v ∈ legalStatus,
    (statusBusy v = true → statusDone v = false ∧ statusErr v = 0 ∧ statusReason v = 0 ∧ v ≠ 0x02) ∧
    (statusErr v = 0 ↔ statusReason v = 0) ∧
    (statusErr v = 1 → statusReason v = 1 ∨ statusReason v = 2 ∨ statusReason v = 3) ∧
    (statusErr v = 2 → statusReason v = 4) ∧
    (statusErr v ≠ 0 → statusDone v = true ∧ v ≠ 0x02) := by
  simp only [legalStatus, List.forall_mem_cons]
  refine ⟨?_, ?_, ?_, ?_, ?_, ?_, ?_, by simp⟩ <;> decide

/-- `STATUS` of the selected instance after a run. -/
def statusAfter (o : Out) : Option Word :=
  match o with
  | .next t => some t.eng.status
  | .fault _ => none
  | .refused _ => none

theorem statusAfter_eq_some {o : Out} {v : Word} (h : statusAfter o = some v) : ∃ t, o = .next t ∧ t.eng.status = v := by
  cases o with
  | next t => exact ⟨t, rfl, Option.some.inj h⟩
  | fault f => cases h
  | refused r => cases h

/-- `STATUS` after `n` steps from `State.reset` of a call with the input 0x01, 0x02: the operand writes, `BUF` filled, the
write of `CMD`, and then the engine's turns. -/
def statusOfCall (writes : List (Reg × Word)) (cmd : Word) (n : Nat) : Option Word :=
  statusAfter (Host.Core.run Sys2Proof.core n (State.reset.setSched (callEvents 0 0 [0x01, 0x02] writes [] cmd)))

/-- Each value of (f) is reached: 0x00 before any step, 0x02 after the 19 engine steps of two bytes, the others right after
the write of `CMD` (R38, R143). -/
theorem legalStatus_reached : ∀ v ∈ legalStatus, ∃ writes cmd n, statusOfCall writes cmd n = some v := by
  have h00 : statusOfCall [] 8 0 = some 0x00 := by decide
  have h01 : statusOfCall [(.end_, 1), (.len, 2)] 8 4 = some 0x01 := by decide
  have h02 : statusOfCall [(.end_, 1), (.len, 2)] 8 23 = some 0x02 := by decide +kernel
  have h16 : statusOfCall [(.start, 1)] 8 3 = some 0x16 := by decide
  have h26 : statusOfCall [] 8 2 = some 0x26 := by decide
  have h36 : statusOfCall [(.end_, 1)] 8 3 = some 0x36 := by decide
  have h4A : statusOfCall [(.end_, 1)] 24 3 = some 0x4A := by decide
  simp only [legalStatus, List.forall_mem_cons]
  exact ⟨⟨_, _, _, h00⟩, ⟨_, _, _, h01⟩, ⟨_, _, _, h02⟩, ⟨_, _, _, h16⟩, ⟨_, _, _, h26⟩, ⟨_, _, _, h36⟩,
    ⟨_, _, _, h4A⟩, by simp⟩

/-- Settles O48: the invariant holds at reset values and along every run, and gives (a) to (f). -/
theorem reachableStatesSatisfyR38 : Obligations.ReachableStatesSatisfyR38 := by
  refine ⟨fun s t n hreset hrun e he => ?_, fun v hv => ?_⟩
  · have hs : s.Inv := fun e he => (hreset e he).1.inv (hreset e he).2
    have h := run_inv hs hrun e he
    obtain ⟨hbusy, hzero, herr1, herr2, herr⟩ := legalStatus_fields e.status h.status_legal
    refine ⟨h.busy_iff, fun hb => ?_, hzero, herr1, herr2, fun hne => ?_, h.status_legal, h.too_short⟩
    · obtain ⟨hdone, herr0, hreason, hne⟩ := hbusy hb
      exact ⟨hdone, herr0, hreason, h.result_zero hne⟩
    · obtain ⟨hdone, hnot2⟩ := herr hne
      exact ⟨hdone, h.result_zero hnot2⟩
  · obtain ⟨writes, cmd, n, hreach⟩ := legalStatus_reached v hv
    obtain ⟨t, hrun, hstatus⟩ := statusAfter_eq_some hreach
    exact ⟨_, n, t, hrun, hstatus⟩

end Sys2Proof.Machine
end

section
/-! SUPPORT. The input buffer: what fills it, what reads it, and that every step keeps its canonical form (R50 to R52, R148,
R177, R196). -/
namespace Sys2Proof.Machine

/-! ## `STEP_XOR_BYTE` and its byte -/

/-- With a byte at `IDX` the step takes it (R135). -/
theorem exec_stepXorByte_of_read {s : State} {b : Byte} (h : s.eng.buf.read s.eng.idx.toNat = some b) :
    exec .stepXorByte s = .next (s.setEng { s.eng with crc := s.eng.crc ^^^ opByte b, bit := 0, phase := .reduce }) := by
  change execStepXorByte s = _
  simp only [execStepXorByte, h]

/-- Past the real end of `BUF` the step is a fault (R50, R177; log entry 6). -/
theorem exec_stepXorByte_of_none {s : State} (h : s.eng.buf.read s.eng.idx.toNat = none) :
    exec .stepXorByte s = .fault .bufferReadNotAdmitted := by
  change execStepXorByte s = _
  simp only [execStepXorByte, h]

/-- Settles O35: the two answers of a read of `BUF` at `IDX`. -/
theorem xorByteStepTakesItsByte : Obligations.XorByteStepTakesItsByte :=
  fun _ => ⟨fun _ => exec_stepXorByte_of_read, exec_stepXorByte_of_none⟩

/-! ## The canonical form -/

/-- If only the selected instance differs, its `BUF` is all there is to show. -/
theorem State.memWf.of_sameAround {s t : State} (h : s.memWf) (haround : s.sameAround t)
    (hbuf : t.eng.buf.wf = true) : t.memWf := by
  intro e he
  rw [State.engines_of_sameAround haround] at he
  rcases List.mem_or_eq_of_mem_set he with hmem | rfl
  · exact h e hmem
  · exact hbuf

/-- The platform of an instance's turn has the instances of the platform, and so their memories. -/
theorem State.memWf.of_turnOf {s u : State} {k : Nat} {rest : List Event} (h : s.memWf) (hturn : s.turnOf k rest u) :
    u.memWf := by
  obtain ⟨hengs, -⟩ := hturn
  rwa [State.memWf, hengs]

theorem State.memWf.eng {s : State} (h : s.memWf) : s.eng.buf.wf = true := h s.eng (by simp [State.engines])

/-- Settles O45: an instruction keeps `BUF`, and an event without one keeps it or replaces it by one in canonical form. -/
theorem stepKeepsMemoryCanonical : Obligations.StepKeepsMemoryCanonical := by
  intro s t hwf hstep
  rcases step_cases hstep with ⟨i, u, hf, hex⟩ | hq
  · obtain ⟨hturn, -, -⟩ := fetch_run hf
    obtain ⟨hbuf, haround⟩ := exec_keepsBufAndAround hex
    have hu := hwf.of_turnOf hturn
    exact hu.of_sameAround haround (hbuf ▸ hu.eng)
  · obtain ⟨u, e, hturn, -, rfl, he⟩ := fetch_quiet hq
    have hu := hwf.of_turnOf hturn
    rcases he with ⟨rfl, -⟩ | ⟨rfl, -⟩ | ⟨-, m, rfl, hm⟩
    · exact hu
    · exact hu.of_sameAround ⟨rfl, rfl, rfl, rfl, rfl⟩ hu.eng
    · exact hu.of_sameAround ⟨rfl, rfl, rfl, rfl, rfl⟩ (hm hu.eng)

/-! ## Steps that stop -/

theorem step_fault {s : State} {f : Fault} (h : fetch s = .fault f) : step s = .fault f := by
  simp only [step, h]

theorem step_refused {s : State} {r : Refusal} (h : fetch s = .refused r) : step s = .refused r := by
  simp only [step, h]

/-! ## A change of `BUF` -/

/-- While the instance is busy, or in the window of R196, a change of `BUF` is a fault (R177). -/
theorem fetchBufChange_closed {n : Nat} {m : Memory} {s : State} (h : s.eng.phase ≠ .idle ∨ s.eng.bufHeld = true) :
    fetchBufChange n m s = .fault .hostBufferWriteWhileBusy := by
  have hclosed : s.eng.bufClosed = true := by simpa [Engine.bufClosed, Engine.busy] using h
  simp only [fetchBufChange, hclosed, if_true]

/-- At the other times a change of `BUF` takes place, up to the longest input (R122). -/
theorem fetchBufChange_open {n : Nat} {m : Memory} {s : State} (hidle : s.eng.phase = .idle)
    (hheld : s.eng.bufHeld = false) (hn : n ≤ maxInputLen) :
    fetchBufChange n m s = .quiet (s.setEng { s.eng with buf := m }) := by
  have hopen : s.eng.bufClosed = false := Engine.bufClosed_false.2 ⟨hidle, hheld⟩
  simp only [fetchBufChange, hopen, hn, Bool.false_eq_true, if_false, if_true]

/-- A longer one is refused (R122, R177; log entry 13). -/
theorem fetchBufChange_tooLong {n : Nat} {m : Memory} {s : State} (hidle : s.eng.phase = .idle)
    (hheld : s.eng.bufHeld = false) (hn : maxInputLen < n) : fetchBufChange n m s = .refused .inputTooLong := by
  have hopen : s.eng.bufClosed = false := Engine.bufClosed_false.2 ⟨hidle, hheld⟩
  simp only [fetchBufChange, hopen, hn.not_ge, Bool.false_eq_true, if_false]

/-- The event that fills `BUF` (R121, R192). -/
theorem fetchEvent_bufFill_of_select {s t : State} {k : Nat} (bytes : List Byte) (ht : s.select k = some t) :
    fetchEvent (.bufFill k bytes) s = fetchBufChange bytes.length (Memory.ofList bytes) t := by
  simp only [fetchEvent, ht]

/-- Settles O14: the fill is a change of `BUF`, to a memory that reads as the list (`Memory.read_ofList`). -/
theorem bufferFillHoldsExactlyTheInput : Obligations.BufferFillHoldsExactlyTheInput := by
  intro s rest k bytes e hs he
  obtain ⟨t, ht, hturn, rfl⟩ := State.select_turnOf rest he
  have hf : fetch s = fetchBufChange bytes.length (Memory.ofList bytes) t :=
    (fetch_cons hs).trans (fetchEvent_bufFill_of_select bytes ht)
  refine ⟨fun hclosed => ?_, fun hidle hheld hlen => ?_, fun hidle hheld hlen => ?_⟩
  · exact step_fault (hf.trans (fetchBufChange_closed hclosed))
  · exact ⟨t, Memory.ofList bytes, hturn, rfl, step_quiet (hf.trans (fetchBufChange_open hidle hheld hlen)),
      Memory.read_ofList bytes⟩
  · exact step_refused (hf.trans (fetchBufChange_tooLong hidle hheld hlen))

/-! ## Bytes outside the range of the command -/

/-- The state with another `BUF` in the selected instance. -/
def State.setBuf (s : State) (m : Memory) : State := s.setEng { s.eng with buf := m }

/-- `m` reads as `BUF` from `START` to `END`, the bytes that a command covers (R51). -/
def Engine.agreesOnRange (e : Engine) (m : Memory) : Prop :=
  ∀ a : Nat, opStart e ≤ a → (a : Int) ≤ opEnd e → m.read a = e.buf.read a

/-- An instance with the same range and the same `BUF` agrees with the same memories. -/
theorem Engine.agreesOnRange.of_kept {e e' : Engine} {m : Memory} (h : e.agreesOnRange m) (hkept : e.OperandsKept e') :
    e'.agreesOnRange m := by
  intro a hstart hend
  have hs : e'.start = e.start := hkept.regs .start nofun nofun
  have he : e'.end_ = e.end_ := hkept.regs .end_ nofun nofun
  rw [opStart, hs] at hstart
  rw [opEnd, he] at hend
  rw [hkept.bytes a]
  exact h a hstart hend

/-- A reduction does not look at `BUF` (R136 to R138). -/
theorem reduceWith_setBuf (f : Word → Word → Word) {s t : State} (m : Memory) (h : reduceWith f s = .next t) :
    reduceWith f (s.setBuf m) = .next (t.setBuf m) := by
  rw [reduceWith_eq] at h
  cases h
  exact congrArg (Host.Outcome.next <| s.setEng ·)
    (Engine.advance_setBuf { s.eng with crc := f s.eng.crc s.eng.poly } m)

/-- An engine step does the same with another `BUF`, if `STEP_XOR_BYTE` finds the same byte there at `IDX`. -/
theorem engineStep_setBuf {i : Instr} {s t : State} {m : Memory} (hi : isEngineStep i) (hex : exec i s = .next t)
    (hread : i = .stepXorByte → m.read s.eng.idx.toNat = s.eng.buf.read s.eng.idx.toNat) :
    exec i (s.setBuf m) = .next (t.setBuf m) := by
  rcases hi with rfl | rfl | rfl | rfl | rfl
  · cases hb : s.eng.buf.read s.eng.idx.toNat with
    | none => rw [exec_stepXorByte_of_none hb] at hex; cases hex
    | some b =>
      rw [exec_stepXorByte_of_read hb] at hex
      cases hex
      exact exec_stepXorByte_of_read (s := s.setBuf m) ((hread rfl).trans hb)
  · exact reduceWith_setBuf crc8Reducer m hex
  · exact reduceWith_setBuf crc16Reducer m hex
  · exact reduceWith_setBuf crc32Reducer m hex
  · cases hex; rfl

/-- Under the invariant `IDX` lies in the range, so the step that the selector chooses does the same with a memory that agrees
there (R33, R51). -/
theorem selectedStep_setBuf {i : Instr} {s t : State} {m : Memory} (hinv : s.eng.Inv s.cfg)
    (hd : decodeFsm s.eng.selector = .instr i) (hm : s.eng.agreesOnRange m) (hex : exec i s = .next t) :
    exec i (s.setBuf m) = .next (t.setBuf m) := by
  refine engineStep_setBuf (selector_isEngineStep hd).1 hex fun _ => ?_
  have hbusy : s.eng.phase ≠ .idle := fun hidle => by rw [decodeFsm_selector, hidle] at hd; cases hd
  have hcommand := hinv.busy hbusy
  exact hm _ hcommand.idx_ge hcommand.idx_le

/-- The event that is the selected instance's own turn (R12, R35). -/
theorem fetch_ownTurn {s : State} {rest : List Event} (h : s.sched = .engine s.left.length :: rest) :
    fetch s = fetchEngine (s.setSched rest) :=
  (fetch_cons h).trans (fetchEvent_engine_of_select (select_self (s.setSched rest)))

/-- The turn of an idle engine agent is no step (R176). -/
theorem fetchEngine_idle {s : State} (h : s.eng.phase = .idle) : fetchEngine s = .quiet s := by
  have hd : decodeFsm s.eng.selector = .noStep := by rw [decodeFsm_selector, h]
  simp only [fetchEngine, hd]

/-- The instance's own turn does the same with a memory that agrees on the range; and the turn keeps the range, `BUF` and
the place of the instance. -/
theorem ownTurn_setBuf {s t : State} {m : Memory} {rest : List Event} (hinv : s.Inv)
    (hs : s.sched = .engine s.left.length :: rest) (hm : s.eng.agreesOnRange m) (hstep : step s = .next t) :
    step (s.setBuf m) = .next (t.setBuf m) ∧ s.eng.OperandsKept t.eng ∧ t.left = s.left ∧ t.sched = rest := by
  have hf' : fetch (s.setBuf m) = fetchEngine ((s.setSched rest).setBuf m) := fetch_ownTurn (s := s.setBuf m) hs
  rcases step_cases hstep with ⟨i, u, hf, hex⟩ | hq
  · rw [fetch_ownTurn hs] at hf
    obtain ⟨rfl, hd⟩ := fetchEngine_run hf
    obtain ⟨-, -, hleft, -, hsched, -⟩ := exec_keepsBufAndAround hex
    have hex' := selectedStep_setBuf (s := s.setSched rest) hinv.eng hd hm hex
    exact ⟨(step_run (hf'.trans (fetchEngine_of_decode hd))).trans hex',
      (engineStep_operandsKept (selector_isEngineStep hd).1 hex).1, hleft, hsched⟩
  · rw [fetch_ownTurn hs] at hq
    obtain ⟨rfl, hidle⟩ := fetchEngine_quiet hq
    exact ⟨step_quiet (hf'.trans (fetchEngine_idle hidle)), Engine.operandsKept_of_eq rfl, rfl, rfl⟩

/-- A run of the instance's own turns does the same with a memory that agrees on the range. -/
theorem ownTurns_setBuf {s t : State} {m : Memory} {n : Nat} (hinv : s.Inv)
    (hs : s.sched = List.replicate n (.engine s.left.length)) (hm : s.eng.agreesOnRange m)
    (hrun : Host.Core.run Sys2Proof.core n s = .next t) :
    Host.Core.run Sys2Proof.core n (s.setBuf m) = .next (t.setBuf m) := by
  induction n generalizing s with
  | zero => cases hrun; rfl
  | succ n ih =>
    obtain ⟨u, hu, hrest⟩ := run_succ_cases hrun
    obtain ⟨hstep, hkept, hleft, hsched⟩ := ownTurn_setBuf hinv hs hm hu
    rw [run_succ_of_next n hstep]
    exact ih (step_inv hinv hu) (hleft ▸ hsched) (hm.of_kept hkept) hrest

/-- Settles O50: every turn does the same with the other `BUF` (`ownTurn_setBuf`), before and after the command ends. -/
theorem bytesOutsideTheRangeNeverMatter : Obligations.BytesOutsideTheRangeNeverMatter :=
  fun _ _ _ _ hinv _ hs hm hrun => ownTurns_setBuf hinv hs hm hrun

end Sys2Proof.Machine
end

section
/-! SUPPORT. The accesses of the host: those that do not exist, and the frame of the register writes and reads (R55, R57,
R79, R104 to R118). -/
namespace Sys2Proof.Machine

/-! ## Accesses that do not exist -/

/-- An access that does not move 32 bits (R55). -/
theorem fetchBus_not32Bits {a : Access} (s : State) (h : a.bits ≠ 32) : fetchBus a s = .refused .accessNot32Bits := by
  simp only [fetchBus, h, if_false]

/-- An access in no register window (R58; log entry 11). -/
theorem fetchBus_outside {a : Access} {s : State} (hbits : a.bits = 32)
    (h : ∀ e ∈ s.engines, e.inWindow a.addr = false) : fetchBus a s = .refused .outsideEveryWindow := by
  simp only [fetchBus, hbits, if_true, windowIndex_none.2 h]

/-- An offset that is no multiple of 4 has `OFF[1:0]` other than 00 (R70). -/
theorem busWord_misaligned {base : Nat} {a : Access} (h : (a.addr - base) % 4 ≠ 0) :
    decodeHbus (busWord base a) = .misaligned := by
  refine decodeHbus_misaligned _ fun hoff => h ?_
  rw [busWord, hbusOff_hbusWord] at hoff
  have hlow := congrArg BitVec.toNat hoff
  simp only [BitVec.extractLsb'_toNat, BitVec.toNat_ofNat, Nat.shiftRight_zero] at hlow
  omega

/-- A transaction at such an offset (R79). -/
theorem fetchTransaction_misaligned {a : Access} {s : State} (h : (a.addr - s.eng.base) % 4 ≠ 0) :
    fetchTransaction a s = .refused .misalignedAccess := by
  simp only [fetchTransaction, busWord_misaligned h]

/-- Settles O12: the checks of a bus access in their order, its width, its window, its offset. -/
theorem accessesThatDoNotExistAreRefused : Obligations.AccessesThatDoNotExistAreRefused := by
  intro s a rest hs
  have hf : fetch s = fetchBus a (s.setSched rest) := fetch_cons hs
  refine ⟨fun hbits => ?_, fun hbits hout => ?_, fun k e hbits hk he hoff => ?_⟩
  · exact step_refused (hf.trans (fetchBus_not32Bits _ hbits))
  · exact step_refused (hf.trans (fetchBus_outside hbits hout))
  · obtain ⟨t, ht, -, rfl⟩ := State.select_turnOf rest he
    have hbus : fetchBus a (s.setSched rest) = fetchTransaction a t := fetchBus_of_select hbits hk ht
    exact step_refused (hf.trans (hbus.trans (fetchTransaction_misaligned hoff)))

/-! ## The frame of the register writes -/

/-- A stored operand is read back from its register; every other register, and a read-only one, reads as before (R104 to
R110). -/
theorem Engine.readReg_storeOperand (e : Engine) (r r' : Reg) (v : Word) :
    (e.storeOperand r v).readReg r' =
      if r' = r ∧ r ≠ .cmd ∧ r ≠ .status ∧ r ≠ .result then v else e.readReg r' := by
  cases r <;> cases r' <;> rfl

/-- A stored operand leaves the hidden state (R104 to R110). -/
theorem storeOperand_sameHidden (r : Reg) (v : Word) (e : Engine) : e.sameHidden (e.storeOperand r v) := by
  cases r <;> exact ⟨rfl, rfl, rfl, rfl, rfl⟩

/-- Settles O19: a write while busy changes nothing, and one while idle stores its operand. -/
theorem registerWriteFrame : Obligations.RegisterWriteFrame := by
  intro s t r v hr hex
  rw [exec_hostWrite r v s hr] at hex
  obtain ⟨hbuf, haround⟩ := hostWrite_keepsBufAndAround hex
  have hbytes : s.eng.sameBuf t.eng := fun a => by rw [hbuf]
  rcases hostWrite_cases hex with ⟨-, rfl⟩ | ⟨-, rfl⟩
  · exact ⟨fun _ _ => rfl, ⟨rfl, rfl, rfl, rfl, rfl⟩, hbytes, rfl, haround, rfl⟩
  · obtain ⟨-, -, -, -, -, -, hheld⟩ := storeOperand_frame r v s.eng
    refine ⟨fun r' hr' => ?_, storeOperand_sameHidden r v s.eng, hbytes, hheld, haround, rfl⟩
    refine (s.eng.readReg_storeOperand r r' v).trans (if_neg ?_)
    rintro ⟨heq, -, hstatus, hresult⟩
    rcases hr' with hne | rfl | rfl
    · exact hne heq
    · exact hstatus rfl
    · exact hresult rfl

/-! ## The register reads -/

/-- A read of a register other than `STATUS` changes nothing but the last value read (R57). -/
theorem hostRead_of_ne {r : Reg} (s : State) (h : r ≠ .status) :
    hostRead r s = .next (s.respond (s.eng.readReg r)) := by
  rw [hostRead_eq, s.eng.afterRead_of_ne r h, State.setEng_eng_self]

/-- Settles O20: the reads of the eight registers, that of `STATUS` with the window of R196. -/
theorem readsReturnTheirRegister : Obligations.ReadsReturnTheirRegister :=
  fun s =>
    ⟨hostRead_of_ne (r := .cmd) s nofun, hostRead_of_ne (r := .init) s nofun, hostRead_of_ne (r := .poly) s nofun,
      hostRead_of_ne (r := .start) s nofun, hostRead_of_ne (r := .end_) s nofun, hostRead_of_ne (r := .len) s nofun,
      hostRead_eq .status s, hostRead_of_ne (r := .result) s nofun⟩

/-- A read leaves the window of R196, but for one of `STATUS` with `BUSY = 0` (R196). -/
theorem Engine.afterRead_bufHeld {e : Engine} {r : Reg} (h : r ≠ .status ∨ statusBusy e.status = true) :
    (e.afterRead r).bufHeld = e.bufHeld := by
  rcases h with hne | hbusy
  · rw [e.afterRead_of_ne r hne]
  · rw [e.afterRead_busy r hbusy]

/-- A read leaves what every register reads (R57). -/
theorem Engine.readReg_afterRead (e : Engine) (r r' : Reg) : (e.afterRead r).readReg r' = e.readReg r' := by
  obtain ⟨h, heq⟩ := e.afterRead_eq r
  rw [heq]
  rfl

/-- A read leaves the hidden state (R57). -/
theorem Engine.afterRead_sameHidden (e : Engine) (r : Reg) : e.sameHidden (e.afterRead r) :=
  ⟨e.afterRead_phase r, e.afterRead_wsel r, e.afterRead_crc r, e.afterRead_idx r, e.afterRead_bit r⟩

/-- Settles O21: what `Engine.afterRead` leaves, and that nothing around the instance changes. -/
theorem registerReadFrame : Obligations.RegisterReadFrame := by
  intro s t r hex
  rw [exec_hostRead] at hex
  obtain ⟨hbuf, haround⟩ := hostRead_keepsBufAndAround hex
  have hbytes : s.eng.sameBuf t.eng := fun a => by rw [hbuf]
  rw [hostRead_eq] at hex
  cases hex
  exact ⟨s.eng.readReg_afterRead r, s.eng.afterRead_sameHidden r, hbytes, haround, Engine.afterRead_bufHeld⟩

end Sys2Proof.Machine
end

section
/-! SUPPORT. The encodings (R70 to R83): which instructions a word of either format decodes to, the way back by the encoder,
and the row of the opcode table that each word belongs to; and the words of a host program (R81). -/
namespace Sys2Proof

open Sys2Proof.Machine

/-! ## Host writes and host reads -/

/-- The word of a host write, entry points included (R70, R78). -/
theorem encode_hostWriteInstr (r : Reg) (v : Word) : encode (hostWriteInstr r v) = .hbus (hbusWord true r.off v) := by
  cases r
  case cmd =>
    change encode (cmdWrite v) = _
    rcases cmdWrite_cases v with ⟨rfl, h⟩ | ⟨rfl, h⟩ | ⟨rfl, h⟩ | ⟨-, h⟩ <;> rw [h] <;> rfl
  all_goals rfl

/-- The word of a host read, with `DATA = 0` (R70). -/
theorem encode_hostReadInstr (r : Reg) : encode (hostReadInstr r) = .hbus (hbusWord false r.off 0) := by
  cases r <;> rfl

theorem hostWriteInstr_wf (r : Reg) (v : Word) : (hostWriteInstr r v).wf = true := by
  cases r
  case cmd =>
    change (cmdWrite v).wf = true
    rcases cmdWrite_cases v with ⟨-, h⟩ | ⟨-, h⟩ | ⟨-, h⟩ | ⟨hv, h⟩ <;> rw [h]
    case inr.inr.inr => rw [Instr.wf, hv]; rfl
    all_goals rfl
  all_goals rfl

theorem hostReadInstr_wf (r : Reg) : (hostReadInstr r).wf = true := by
  cases r <;> rfl

theorem isEngineStep_wf {i : Instr} (h : isEngineStep i) : i.wf = true := by
  rcases h with rfl | rfl | rfl | rfl | rfl <;> rfl

/-- A write of `CMD` with a width that is no entry point's (R78). -/
theorem cmdWrite_of_wf {v : Word} (h : (Instr.wrCmd v).wf = true) : cmdWrite v = .wrCmd v := by
  rcases cmdWrite_cases v with ⟨rfl, -⟩ | ⟨rfl, -⟩ | ⟨rfl, -⟩ | ⟨-, hv⟩
  case inr.inr.inr => exact hv
  all_goals cases h

/-- The well-formed instructions are the host writes, the host reads and the engine steps (R78). -/
theorem Instr.wf_cases {i : Instr} (h : i.wf = true) :
    (∃ r v, i = hostWriteInstr r v) ∨ (∃ r, i = hostReadInstr r) ∨ isEngineStep i := by
  cases i
  case wrCmd v => exact .inl ⟨.cmd, v, (cmdWrite_of_wf h).symm⟩
  case crc8 => exact .inl ⟨.cmd, 8, rfl⟩
  case crc16 => exact .inl ⟨.cmd, 16, rfl⟩
  case crc32 => exact .inl ⟨.cmd, 32, rfl⟩
  case wrInit v => exact .inl ⟨.init, v, rfl⟩
  case wrPoly v => exact .inl ⟨.poly, v, rfl⟩
  case wrStart v => exact .inl ⟨.start, v, rfl⟩
  case wrEnd v => exact .inl ⟨.end_, v, rfl⟩
  case wrLen v => exact .inl ⟨.len, v, rfl⟩
  case wrStatus v => exact .inl ⟨.status, v, rfl⟩
  case wrResult v => exact .inl ⟨.result, v, rfl⟩
  case rdCmd => exact .inr (.inl ⟨.cmd, rfl⟩)
  case rdInit => exact .inr (.inl ⟨.init, rfl⟩)
  case rdPoly => exact .inr (.inl ⟨.poly, rfl⟩)
  case rdStart => exact .inr (.inl ⟨.start, rfl⟩)
  case rdEnd => exact .inr (.inl ⟨.end_, rfl⟩)
  case rdLen => exact .inr (.inl ⟨.len, rfl⟩)
  case rdStatus => exact .inr (.inl ⟨.status, rfl⟩)
  case rdResult => exact .inr (.inl ⟨.result, rfl⟩)
  all_goals exact .inr (.inr (by simp [isEngineStep]))

/-- Settles O1: the word of a host write or read carries its register and its `DATA`, and an engine step's selector is its
own. -/
theorem decodeOfEncodeIsTheInstruction : Obligations.DecodeOfEncodeIsTheInstruction := by
  intro i hi
  rcases Instr.wf_cases hi with ⟨r, v, rfl⟩ | ⟨r, rfl⟩ | hstep
  · rw [encode_hostWriteInstr]
    exact decodeHbus_hbusWord true r v
  · rw [encode_hostReadInstr]
    exact decodeHbus_hbusWord false r 0
  · rcases hstep with rfl | rfl | rfl | rfl | rfl <;> rfl

/-! ## What a word decodes to -/

/-- An aligned transaction is a host write or a host read, and the word is put together from its register and its `DATA`
(R70, R71, R78). -/
theorem decodeHbus_instr_cases {w : BitVec 38} {i : Instr} (h : decodeHbus w = .instr i) :
    ∃ r : Reg, (hbusRw w = true ∧ w = hbusWord true r.off (hbusData w) ∧ i = hostWriteInstr r (hbusData w)) ∨
      (hbusRw w = false ∧ w = hbusWord false r.off (hbusData w) ∧ i = hostReadInstr r) := by
  obtain ⟨r, hoff, hi⟩ := decodeHbus_instr h
  have hw := (hbusWord_fields w).symm
  rw [hoff] at hw
  cases hrw : hbusRw w with
  | true => rw [hrw] at hw hi; exact ⟨r, .inl ⟨rfl, hw, hi⟩⟩
  | false => rw [hrw] at hw hi; exact ⟨r, .inr ⟨rfl, hw, hi⟩⟩

/-- Every selector is put together from a phase and a width selector (R74, R75). -/
theorem fsmWord_codes (f : BitVec 4) :
    ∃ x p, f = fsmWord (WSel.code x) (Phase.code p) := by
  have h : ∀ f : BitVec 4,
      f = fsmWord (wselOfCode (f.extractLsb' 2 2)).code (phaseOfCode (f.extractLsb' 0 2)).code := by decide
  exact ⟨_, _, h f⟩

/-- A selector that runs an instruction runs an engine step (R75). -/
theorem decodeFsm_instr {f : BitVec 4} {i : Instr} (h : decodeFsm f = .instr i) : isEngineStep i := by
  obtain ⟨x, p, rfl⟩ := fsmWord_codes f
  exact (selector_isEngineStep (e := { Engine.atReset 0 [] with wsel := x, phase := p }) h).1

/-- A transaction decodes to a host write or a host read, a selector to an engine step, and all of these are well formed
(R78). -/
theorem decode_wf {x : Encoded} {i : Instr} (h : decode x = .instr i) : i.wf = true := by
  cases x with
  | hbus w =>
    obtain ⟨r, ⟨-, -, rfl⟩ | ⟨-, -, rfl⟩⟩ := decodeHbus_instr_cases h
    · exact hostWriteInstr_wf r _
    · exact hostReadInstr_wf r
  | fsm f => exact isEngineStep_wf (decodeFsm_instr h)

/-- Settles O2: `decode_wf`, and the write of `CMD` as a transaction at its register's offset. -/
theorem decodedInstructionsAreWellFormed : Obligations.DecodedInstructionsAreWellFormed :=
  ⟨fun _ _ => decode_wf, decodeHbus_hbusWord true .cmd⟩

/-- Settles O3: a host write is encoded with its own `DATA`, a host read with 0. -/
theorem encodeOfDecodedTransactionIsTheWord : Obligations.EncodeOfDecodedTransactionIsTheWord := by
  intro w i h
  obtain ⟨r, ⟨hrw, hw, rfl⟩ | ⟨hrw, hw, rfl⟩⟩ := decodeHbus_instr_cases h
  · refine ⟨fun _ => ?_, fun h0 => absurd (hrw.symm.trans h0) nofun⟩
    rw [encode_hostWriteInstr, ← hw]
  · refine ⟨fun h1 => absurd (hrw.symm.trans h1) nofun, fun _ => ?_⟩
    have hoff : hbusOff w = r.off := by rw [hw, hbusOff_hbusWord]
    rw [encode_hostReadInstr, and_rowMask, hrw, hoff]

/-- Settles O6: each word is put together from its `RW`, its register and its `DATA`; the refused one has
`OFF[1:0] = 10`. The selectors are closed words. -/
theorem knownWordsDecode : Obligations.KnownWordsDecode :=
  ⟨decodeHbus_hbusWord true .cmd 32, decodeHbus_hbusWord true .cmd 16, decodeHbus_hbusWord true .cmd 8,
    decodeHbus_hbusWord true .cmd 24, decodeHbus_hbusWord true .init 0xFFFFFFFF, decodeHbus_hbusWord true .end_ 8,
    decodeHbus_hbusWord true .result 5, decodeHbus_hbusWord false .status 0xDEADBEEF,
    decodeHbus_hbusWord false .poly 0, decodeHbus_misaligned _ (by decide), rfl, rfl, rfl, rfl, rfl⟩

/-- Settles O7: a line's word carries the fields it is put together from. -/
theorem programLinesEncodeTheirTransactions : Obligations.ProgramLinesEncodeTheirTransactions :=
  fun r imm _ _ _ =>
    ⟨⟨_, rfl, hbusRw_hbusWord true r.off _, decodeHbus_hbusWord true r (BitVec.ofInt 32 imm)⟩,
      ⟨_, rfl, hbusRw_hbusWord false r.off 0, hbusData_hbusWord false r.off 0, decodeHbus_hbusWord false r 0⟩,
      rfl, rfl, rfl, rfl, rfl⟩

/-! ## The rows of the opcode table -/

/-- The row of a transaction that takes any `DATA` (R78). -/
def dataRow (rw : Bool) (r : Reg) : Row := .hbus (hbusWord rw r.off 0) 0x3F00000000

/-- The row of an entry point: the one word that writes `v` to `CMD` (R78). -/
def entryRow (v : Word) : Row := .hbus (hbusWord true Reg.cmd.off v) 0x3FFFFFFFFF

theorem dataRow_covers (rw : Bool) (r : Reg) (v : Word) :
    (dataRow rw r).covers (.hbus (hbusWord rw r.off v)) = true := by
  simp only [dataRow, Row.covers, and_rowMask, hbusRw_hbusWord, hbusOff_hbusWord, beq_self_eq_true]

theorem entryRow_covers {v : Word} {w : BitVec 38} :
    (entryRow v).covers (.hbus w) = true ↔ w = hbusWord true Reg.cmd.off v := by
  have hm : (0x3FFFFFFFFF : BitVec 38) = BitVec.allOnes 38 := rfl
  simp only [entryRow, Row.covers, hm, BitVec.and_allOnes, beq_iff_eq]

theorem hostReadInstr_row (r : Reg) : (hostReadInstr r).row = dataRow false r := by
  cases r <;> rfl

/-- The row of a host write: the register's, or an entry point's (R78). -/
theorem hostWriteInstr_row (r : Reg) (v : Word) :
    (hostWriteInstr r v).row = dataRow true r ∨ (r = .cmd ∧ (hostWriteInstr r v).row = entryRow v) := by
  cases r
  case cmd =>
    change (cmdWrite v).row = _ ∨ (_ ∧ (cmdWrite v).row = _)
    rcases cmdWrite_cases v with ⟨rfl, h⟩ | ⟨rfl, h⟩ | ⟨rfl, h⟩ | ⟨-, h⟩ <;> rw [h]
    case inr.inr.inr => exact .inl rfl
    all_goals exact .inr ⟨rfl, rfl⟩
  all_goals exact .inl rfl

theorem Row.maskWithin_refl (row : Row) : row.maskWithin row = true := by
  cases row <;> simp [Row.maskWithin]

/-- The mask of a row that takes any `DATA` is within that of every transaction (R78). -/
theorem dataRow_maskWithin {w : BitVec 38} {i : Instr} (h : decodeHbus w = .instr i) (rw : Bool) (r : Reg) :
    (dataRow rw r).maskWithin i.row = true := by
  obtain ⟨r', ⟨-, -, rfl⟩ | ⟨-, -, rfl⟩⟩ := decodeHbus_instr_cases h
  · rcases hostWriteInstr_row r' (hbusData w) with hrow | ⟨-, hrow⟩ <;> rw [hrow] <;> rfl
  · rw [hostReadInstr_row]; rfl

/-- The row of the decoded instruction covers the word (R78, R83). -/
theorem decodeHbus_covers {w : BitVec 38} {i : Instr} (h : decodeHbus w = .instr i) :
    i.row.covers (.hbus w) = true := by
  obtain ⟨r, ⟨-, hw, rfl⟩ | ⟨-, hw, rfl⟩⟩ := decodeHbus_instr_cases h
  · rcases hostWriteInstr_row r (hbusData w) with hrow | ⟨rfl, hrow⟩
    · rw [hrow, hw]
      exact dataRow_covers true r _
    · rw [hrow]
      exact entryRow_covers.2 hw
  · rw [hostReadInstr_row, hw]
    exact dataRow_covers false r _

/-- The rows of the opcode table are rows of well-formed instructions. -/
theorem exists_instr_of_mem_opcodeRows {row : Row} (h : row ∈ opcodeRows) : ∃ j : Instr, j.wf = true ∧ j.row = row := by
  simp only [opcodeRows, ← List.map_append] at h
  obtain ⟨j, hj, rfl⟩ := List.mem_map.1 h
  refine ⟨j, ?_, rfl⟩
  revert j
  decide

/-- The decoder takes the row with the widest mask (R78): a row that fixes `DATA` has one word, and that word decodes to its
entry point. -/
theorem decodeHbus_widest {w : BitVec 38} {i : Instr} (h : decodeHbus w = .instr i) {row : Row} (hrow : row ∈ opcodeRows)
    (hcov : row.covers (.hbus w) = true) : row.maskWithin i.row = true := by
  obtain ⟨j, hwf, rfl⟩ := exists_instr_of_mem_opcodeRows hrow
  rcases Instr.wf_cases hwf with ⟨r, v, rfl⟩ | ⟨r, rfl⟩ | hstep
  · rcases hostWriteInstr_row r v with hdata | ⟨rfl, hentry⟩
    · rw [hdata]
      exact dataRow_maskWithin h true r
    · rw [hentry] at hcov
      have hd : decodeHbus w = .instr (hostWriteInstr .cmd v) := by
        rw [entryRow_covers.1 hcov]
        exact decodeHbus_hbusWord true .cmd v
      cases h.symm.trans hd
      exact Row.maskWithin_refl _
  · rw [hostReadInstr_row]
    exact dataRow_maskWithin h false r
  · rcases hstep with rfl | rfl | rfl | rfl | rfl <;> cases hcov

/-- The write that is `WR_CMD` of `u` carries `u`: the encodings of the two have the same `DATA` (R70). -/
theorem hostWriteInstr_eq_wrCmd {r : Reg} {v u : Word} (h : hostWriteInstr r v = .wrCmd u) : u = v := by
  have hw := (congrArg encode h).symm.trans (encode_hostWriteInstr r v)
  simpa using congrArg hbusData (Encoded.hbus.inj hw)

/-- The width of a decoded `WR_CMD` is the word's `DATA` (R78). -/
theorem decodeHbus_wrCmd {w : BitVec 38} {u : Word} (h : decodeHbus w = .instr (.wrCmd u)) : u = hbusData w := by
  obtain ⟨r, ⟨-, -, hi⟩ | ⟨-, -, hi⟩⟩ := decodeHbus_instr_cases h
  · exact hostWriteInstr_eq_wrCmd hi.symm
  · cases r <;> cases hi

/-- `OFF[1:0]` is bits 33 to 32 of the word (R70, R79). -/
theorem hbusOff_low (w : BitVec 38) : (hbusOff w).extractLsb' 0 2 = w.extractLsb' 32 2 := by
  apply BitVec.eq_of_getLsbD_eq
  intro j hj
  have h5 : j < 5 := by omega
  simp [hbusOff, hj, h5]

/-- A transaction with `OFF[1:0] = 00` decodes (R83). -/
theorem exists_decodeHbus_of_aligned {w : BitVec 38} (h : (hbusOff w).extractLsb' 0 2 = 0#2) :
    ∃ i, decodeHbus w = .instr i := by
  obtain ⟨r, hw⟩ := decodeHbus_aligned w h
  exact ⟨_, (congrArg decodeHbus hw).trans (decodeHbus_hbusWord (hbusRw w) r (hbusData w))⟩

/-- What each selector decodes to (R75, R79, R83). -/
theorem decodeFsm_cases (f : BitVec 4) :
    (f.extractLsb' 0 2 = 0b00 ∧ decodeFsm f = .noStep) ∨ (f = 0b1110 ∧ decodeFsm f = .unreachableSelector) ∨
    (f.extractLsb' 0 2 ≠ 0b00 ∧ f ≠ 0b1110 ∧
      ∃ i, decodeFsm f = .instr i ∧ i.row.covers (.fsm f) = true) := by
  obtain ⟨x, p, rfl⟩ := fsmWord_codes f
  cases p with
  | idle => exact .inl (by cases x <;> decide)
  | xorByte => exact .inr (.inr (by cases x <;> exact ⟨by decide, by decide, _, rfl, rfl⟩))
  | reduce =>
    cases x with
    | reserved => exact .inr (.inl (by decide))
    | w8 => exact .inr (.inr ⟨by decide, by decide, _, rfl, rfl⟩)
    | w16 => exact .inr (.inr ⟨by decide, by decide, _, rfl, rfl⟩)
    | w32 => exact .inr (.inr ⟨by decide, by decide, _, rfl, rfl⟩)
  | finish => exact .inr (.inr (by cases x <;> exact ⟨by decide, by decide, _, rfl, rfl⟩))

/-- Settles O4: alignment decides whether a transaction decodes, and its row is the widest that covers it; a selector is split
by its phase. -/
theorem decoderIsTotalAndAgreesWithTheRows : Obligations.DecoderIsTotalAndAgreesWithTheRows := by
  refine ⟨fun w => ?_, fun f => ?_⟩
  · rw [← hbusOff_low]
    by_cases ha : (hbusOff w).extractLsb' 0 2 = 0#2
    · obtain ⟨i, hd⟩ := exists_decodeHbus_of_aligned ha
      exact .inr ⟨ha, i, hd, decode_wf (x := .hbus w) hd, decodeHbus_covers hd,
        fun _ => decodeHbus_widest hd, fun v hv => decodeHbus_wrCmd (hv ▸ hd)⟩
    · exact .inl ⟨ha, decodeHbus_misaligned w ha⟩
  · rcases decodeFsm_cases f with hidle | hreserved | ⟨hphase, hne, i, hd, hcov⟩
    · exact .inl hidle
    · exact .inr (.inl hreserved)
    · exact .inr (.inr ⟨hphase, hne, i, hd, decode_wf (x := .fsm f) hd, hcov⟩)

/-- Settles O5: the rows are closed words, and so is what two of them have in common. -/
theorem rowsOverlapOnlyAtTheEntryPoints : Obligations.RowsOverlapOnlyAtTheEntryPoints :=
  ⟨rfl, by decide⟩

end Sys2Proof
end

section
/-! SUPPORT. The reserved selector, the entry points and the last engine step (R79, R101 to R103, R139), and how the host maps
its options onto the registers (R121). -/
namespace Sys2Proof.Machine

/-! ## Engine steps and commands -/

/-- The turn of an engine agent with the reserved selector (R79). -/
theorem fetchEngine_reserved {s : State} (hp : s.eng.phase = .reduce) (hx : s.eng.wsel = .reserved) :
    fetchEngine s = .fault .unreachableSelector := by
  simp only [fetchEngine, decodeFsm_selector, hp, hx]

/-- Settles O11: the turn reaches the instance, whose selector is the unreachable one. -/
theorem unreachableSelectorIsAFault : Obligations.UnreachableSelectorIsAFault := by
  intro s rest k e hs he hp hx
  obtain ⟨t, ht, -, rfl⟩ := State.select_turnOf rest he
  apply step_fault
  calc fetch s = fetchEvent (.engine k) (s.setSched rest) := fetch_cons hs
    _ = fetchEngine t := fetchEvent_engine_of_select ht
    _ = .fault .unreachableSelector := fetchEngine_reserved hp hx

/-- Settles O25: both sides are `command` at the same width. -/
theorem entryPointsAreTheGenericCommand : Obligations.EntryPointsAreTheGenericCommand :=
  fun _ => ⟨rfl, rfl, rfl⟩

/-- `STEP_FINISH` goes idle with the value of R139, at every `WSEL`. -/
theorem exec_stepFinish (s : State) :
    exec .stepFinish s = .next (s.setEng { s.eng with
      result := finishValue s.cfg s.eng.wsel s.eng.crc, status := 0x00000002, phase := .idle }) := rfl

/-- The mask of a width (R10, R73). -/
theorem WSel.mask_of_width {x : WSel} {w : Nat} (h : x.width = some w) : x.mask = BitVec.ofNat 32 (2 ^ w - 1) := by
  simp only [WSel.mask, h, maskOfWidth]

/-- Settles O39: the value of R139 with the mask of the width; at the code 11 the mask is free. -/
theorem finishStepWritesTheResult : Obligations.FinishStepWritesTheResult := by
  refine fun s => ⟨fun w hw => ?_, fun _ => ⟨_, exec_stepFinish s⟩⟩
  have hwidth : s.eng.wsel.width = some w := by
    rcases hw with ⟨hx, rfl⟩ | ⟨hx, rfl⟩ | ⟨hx, rfl⟩ <;> rw [hx] <;> rfl
  rw [exec_stepFinish, finishValue, WSel.mask_of_width hwidth]
  rfl

/-! ## The option set of a call -/

theorem bitsOption_text (b : BitsOption) : bitsOption b.text = some b := by
  cases b <;> decide

/-- The three strings are the only values of the option (R121). -/
theorem bitsOption_eq_some {t : String} {b : BitsOption} : bitsOption t = some b ↔ t = b.text := by
  refine ⟨fun h => ?_, fun h => h ▸ bitsOption_text b⟩
  unfold bitsOption at h
  split_ifs at h with h8 h16 h32
  · cases h; exact h8
  · cases h; exact h16
  · cases h; exact h32

theorem BitsOption.fitsWidth_value (b : BitsOption) : fitsWidth b.value = true := by
  cases b <;> decide

theorem fitsIndex_of_bounds {i : Int} (hlo : -(2 ^ 31) ≤ i) (hhi : i < 2 ^ 31) : fitsIndex i = true := by
  simp only [fitsIndex, decide_eq_true_eq]
  omega

/-- A call whose operands all have a register encoding is carried out on the registers (R121, R122). -/
theorem hostPlan_of_fits {cfg : Config} {input : List Byte} {width s e : Int} {init poly : Nat}
    (hlen : input.length ≤ maxInputLen) (hwidth : fitsWidth width = true) (hs : fitsIndex s = true)
    (he : fitsIndex e = true) :
    hostPlan cfg input width init poly s e = .transactions input
      [(.len, BitVec.ofNat 32 input.length), (.init, BitVec.ofNat 32 init), (.poly, BitVec.ofNat 32 poly),
        (.start, BitVec.ofInt 32 s), (.end_, BitVec.ofInt 32 e)]
      (BitVec.ofInt 32 width) := by
  have hnot : ¬ maxInputLen < input.length := hlen.not_gt
  simp only [hostPlan, hnot, if_false, hwidth, hs, he, Bool.and_self, if_true]

/-- `CMD` is written last (R121). -/
theorem callEvents_getLast? (k base : Nat) (input : List Byte) (before after : List (Reg × Word)) (cmd : Word) :
    (callEvents k base input before after cmd).getLast? = some (.bus (writeAccess base .cmd cmd)) := by
  simp only [callEvents, writeEvents, List.map_append, List.map_cons, List.map_nil, ← List.append_assoc,
    List.getLast?_concat]

/-- Settles O57: the option set fits the registers, and `CMD` gets the decimal value of `Bits`. -/
theorem hostMapsItsOptionsOntoTheRegisters : Obligations.HostMapsItsOptionsOntoTheRegisters := by
  refine ⟨fun _ _ => bitsOption_eq_some, rfl, rfl, rfl, fun cfg input o hlen hs hs' he he' => ?_⟩
  refine ⟨BitVec.ofInt 32 o.bits.value,
    hostPlan_of_fits hlen o.bits.fitsWidth_value (fitsIndex_of_bounds hs hs') (fitsIndex_of_bounds he he'),
    fun h => ?_, fun h => ?_, fun h => ?_, fun k base before after => callEvents_getLast? k base input before after _⟩
  all_goals rw [h]; decide

end Sys2Proof.Machine
end

section
/-! SUPPORT. The host's transactions one by one: that each completes, what it does while busy, and how a command starts (R100 to
R110, R119, R120, R140); and the change of a byte of `BUF` (R177, R196). -/
namespace Sys2Proof.Machine

/-! ## The host writes -/

/-- A host write of a register whose write stores nothing has no effect, busy or idle (R109, R110). -/
theorem hostWrite_of_readOnly {r : Reg} (v : Word) (s : State) (h : s.eng.storeOperand r v = s.eng) :
    hostWrite r v s = .next s := by
  by_cases hidle : s.eng.phase = .idle
  · rw [hostWrite_idle r v hidle, h, State.setEng_eng_self]
  · exact hostWrite_busy r v hidle

/-- A read leaves everything of the platform but the window of R196 and the last value read (R57, R119). -/
theorem hostRead_bufHeld (r : Reg) (s : State) : ∃ held, hostRead r s =
    .next { s with eng := { s.eng with bufHeld := held }, lastRead := some (s.eng.readReg r) } := by
  obtain ⟨held, heq⟩ := s.eng.afterRead_eq r
  exact ⟨held, by rw [hostRead_eq, heq]; rfl⟩

/-- Settles O18: neither register stores what is written to it. -/
theorem statusAndResultIgnoreWrites : Obligations.StatusAndResultIgnoreWrites :=
  fun s v => ⟨hostWrite_of_readOnly (r := .status) v s rfl, hostWrite_of_readOnly (r := .result) v s rfl⟩

/-- Settles O17: each of the five is a write while idle, of its own register. -/
theorem operandWritesStoreTheirData : Obligations.OperandWritesStoreTheirData :=
  fun _ v hidle => ⟨hostWrite_idle .init v hidle, hostWrite_idle .poly v hidle, hostWrite_idle .start v hidle,
    hostWrite_idle .end_ v hidle, hostWrite_idle .len v hidle⟩

/-- Settles O16: the four commands, the seven other writes, and the reads. -/
theorem writesWhileBusyHaveNoEffect : Obligations.WritesWhileBusyHaveNoEffect :=
  fun s v hbusy => ⟨command_busy v hbusy, command_busy 8 hbusy, command_busy 16 hbusy, command_busy 32 hbusy,
    hostWrite_busy .init v hbusy, hostWrite_busy .poly v hbusy, hostWrite_busy .start v hbusy,
    hostWrite_busy .end_ v hbusy, hostWrite_busy .len v hbusy, hostWrite_busy .status v hbusy,
    hostWrite_busy .result v hbusy, fun r => exec_hostRead r s ▸ hostRead_bufHeld r s⟩

/-! ## Every transaction completes -/

theorem command_completes (v : Word) (s : State) : ∃ t, command v s = .next t := by
  by_cases hidle : s.eng.phase = .idle
  · exact ⟨_, command_idle v hidle⟩
  · exact ⟨s, command_busy v hidle⟩

theorem hostWrite_completes (r : Reg) (v : Word) (s : State) : ∃ t, hostWrite r v s = .next t := by
  by_cases hidle : s.eng.phase = .idle
  · exact ⟨_, hostWrite_idle r v hidle⟩
  · exact ⟨s, hostWrite_busy r v hidle⟩

/-- Settles O30: a transaction is a command, a host write or a host read, and none of them stops. -/
theorem everyTransactionCompletes : Obligations.EveryTransactionCompletes := by
  refine fun s r v => ⟨?_, command_completes v s, ?_⟩
  · by_cases hr : r = .cmd
    · rw [hr, exec_command]
      exact command_completes v s
    · rw [exec_hostWrite r v s hr]
      exact hostWrite_completes r v s
  · rw [exec_hostRead]
    exact ⟨_, hostRead_eq r s⟩

/-! ## The start of a command -/

/-- A validated command of width `w` loads `CRC` with the initial value masked to the width (R100, R140). -/
theorem command_start {s : State} {v : Word} {x : WSel} {w : Nat} (hidle : s.eng.phase = .idle)
    (hvalid : validate s.cfg.minRange (opWidth v) (opStart s.eng) (opEnd s.eng) (opLen s.eng) = none)
    (hx : wselOfWidth (opWidth v) = some x) (hw : x.width = some w) :
    command v s = .next (s.setEng { s.eng with
      cmd := v, result := 0, status := 0x00000001, wsel := x, idx := s.eng.start, bit := 0, phase := .xorByte,
      crc := s.eng.init &&& BitVec.ofNat 32 (2 ^ w - 1), bufHeld := true }) := by
  rw [command_idle v hidle, acceptCommand_start hvalid hx, ← WSel.mask_of_width hw]
  rfl

/-- Settles O23: `command_start` at the three widths. -/
theorem validCommandStartsTheEngine : Obligations.ValidCommandStartsTheEngine := by
  rintro s v x hidle hvalid (⟨rfl, rfl⟩ | ⟨rfl, rfl⟩ | ⟨rfl, rfl⟩)
  · exact command_start hidle hvalid rfl rfl
  · exact command_start hidle hvalid rfl rfl
  · exact command_start hidle hvalid rfl rfl

/-- Settles O24: `command_start` at the width of each entry point; the mask of width 32 keeps the whole of `INIT`. -/
theorem entryPointsStartTheirCommands : Obligations.EntryPointsStartTheirCommands := by
  refine fun s hidle => ⟨fun hvalid => command_start (v := 8) hidle hvalid rfl rfl,
    fun hvalid => command_start (v := 16) hidle hvalid rfl rfl, fun hvalid => ?_⟩
  have hmask : s.eng.init &&& BitVec.ofNat 32 (2 ^ 32 - 1) = s.eng.init := BitVec.and_allOnes
  have hstart := command_start (v := 32) hidle hvalid rfl rfl
  rw [hmask] at hstart
  exact hstart

/-! ## A byte of `BUF` -/

/-- The event that writes one byte of `BUF` (R196). -/
theorem fetchEvent_bufWrite_of_select {s t : State} {k : Nat} (a : Nat) (b : Byte) (ht : s.select k = some t) :
    fetchEvent (.bufWrite k a b) s = fetchBufChange (a + 1) (t.eng.buf.write a b) t := by
  simp only [fetchEvent, ht]

/-- Settles O13: the write is a change of `BUF`, to a memory that differs at its index only (`Memory.read_write_same`,
`Memory.read_write_other`). -/
theorem bufferWritesFaultOnlyInTheirWindow : Obligations.BufferWritesFaultOnlyInTheirWindow := by
  intro s rest k a b e hs he
  obtain ⟨t, ht, hturn, rfl⟩ := State.select_turnOf rest he
  have hf : fetch s = fetchBufChange (a + 1) (t.eng.buf.write a b) t :=
    (fetch_cons hs).trans (fetchEvent_bufWrite_of_select a b ht)
  refine ⟨fun hclosed => ?_, fun hidle hheld htop => ?_, fun hidle hheld htop => ?_⟩
  · exact step_fault (hf.trans (fetchBufChange_closed hclosed))
  · exact ⟨t, t.eng.buf.write a b, hturn, rfl, step_quiet (hf.trans (fetchBufChange_open hidle hheld htop)),
      Memory.read_write_same _ a b, fun _ hne => Memory.read_write_other _ b hne⟩
  · exact step_refused (hf.trans (fetchBufChange_tooLong hidle hheld htop))

end Sys2Proof.Machine
end

section
/-! SUPPORT. A call of the host and what it becomes (R121, R122): the operands that have a register encoding, and the
encodings. -/
namespace Sys2Proof.Machine

/-! ## The operands that fit the registers -/

theorem fitsWidth_iff {w : Int} : fitsWidth w = true ↔ 0 ≤ w ∧ w < 2 ^ 32 := by
  simp only [fitsWidth, decide_eq_true_eq]
  omega

theorem fitsIndex_iff {i : Int} : fitsIndex i = true ↔ -(2 ^ 31) ≤ i ∧ i < 2 ^ 31 := by
  simp only [fitsIndex, decide_eq_true_eq]
  omega

/-- The encoding of a width that fits (R21, R77). -/
theorem opWidth_ofInt {width : Int} (h : fitsWidth width = true) : opWidth (BitVec.ofInt 32 width) = width := by
  obtain ⟨hlo, hhi⟩ := fitsWidth_iff.1 h
  rw [opWidth, BitVec.toNat_ofInt]
  omega

/-- The encoding of an index that fits (R24, R25, R77). -/
theorem toInt_ofInt_of_fitsIndex {i : Int} (h : fitsIndex i = true) : (BitVec.ofInt 32 i).toInt = i := by
  obtain ⟨hlo, hhi⟩ := fitsIndex_iff.1 h
  exact BitVec.toInt_ofInt_eq_self (by decide) hlo hhi

/-- The encoding of the length of an input (R26, R122). -/
theorem toNat_ofNat_length {input : List Byte} (h : input.length ≤ maxInputLen) :
    (BitVec.ofNat 32 input.length).toNat = input.length := by
  rw [maxInputLen] at h
  rw [BitVec.toNat_ofNat]
  omega

/-! ## The plan of a call -/

/-- The three operands of a call that may have no register encoding (R122). -/
def operandsFit (width s e : Int) : Bool := fitsWidth width && fitsIndex s && fitsIndex e

theorem operandsFit_iff {width s e : Int} : operandsFit width s e = true ↔
    (fitsWidth width = true ∧ fitsIndex s = true) ∧ fitsIndex e = true := by
  simp only [operandsFit, Bool.and_eq_true]

/-- The operand writes of a call whose operands fit, in the order of R121. -/
def callOperands (input : List Byte) (init poly : Nat) (s e : Int) : List (Reg × Word) :=
  [(.len, BitVec.ofNat 32 input.length), (.init, BitVec.ofNat 32 init), (.poly, BitVec.ofNat 32 poly),
    (.start, BitVec.ofInt 32 s), (.end_, BitVec.ofInt 32 e)]

section Plan
variable {cfg : Config} {input : List Byte} {width s e : Int} {init poly : Nat}

theorem hostPlan_tooLong (h : maxInputLen < input.length) :
    hostPlan cfg input width init poly s e = .refused .inputTooLong := by
  simp only [hostPlan, h, if_true]

theorem hostPlan_of_operandsFit (hlen : input.length ≤ maxInputLen) (h : operandsFit width s e = true) :
    hostPlan cfg input width init poly s e =
      .transactions input (callOperands input init poly s e) (BitVec.ofInt 32 width) := by
  obtain ⟨⟨hwidth, hs⟩, he⟩ := operandsFit_iff.1 h
  exact hostPlan_of_fits hlen hwidth hs he

/-- What passes validation has a register encoding, on an input that is not too long (R122, R161). -/
theorem operandsFit_of_validate (hlen : input.length ≤ maxInputLen)
    (h : validate cfg.minRange width s e input.length = none) : operandsFit width s e = true := by
  obtain ⟨hs, hse, he⟩ := validate_range h
  obtain ⟨x, hx⟩ := validate_width h
  have hwidth := wselOfWidth_some hx
  rw [maxInputLen] at hlen
  exact operandsFit_iff.2 ⟨⟨fitsWidth_iff.2 (by omega), fitsIndex_iff.2 (by omega)⟩, fitsIndex_iff.2 (by omega)⟩

/-- An operand without a register encoding fails validation, and the host reports that error itself (R122). -/
theorem hostPlan_of_not_operandsFit (hlen : input.length ≤ maxInputLen) (h : operandsFit width s e = false) :
    ∃ r, validate cfg.minRange width s e input.length = some r ∧
      hostPlan cfg input width init poly s e = .report (errorReport cfg r) := by
  cases hv : validate cfg.minRange width s e input.length with
  | none => rw [operandsFit_of_validate hlen hv] at h; cases h
  | some r =>
    rw [operandsFit] at h
    exact ⟨r, rfl, by simp only [hostPlan, hlen.not_gt, h, hv, if_false, Bool.false_eq_true]⟩

/-- A call that becomes transactions: its operands fit, and they are what is written (R121, R122). -/
theorem hostPlan_transactions {input' : List Byte} {operands : List (Reg × Word)} {cmd : Word}
    (h : hostPlan cfg input width init poly s e = .transactions input' operands cmd) :
    input.length ≤ maxInputLen ∧ operandsFit width s e = true ∧ operands = callOperands input init poly s e ∧
      cmd = BitVec.ofInt 32 width := by
  rcases Nat.lt_or_ge maxInputLen input.length with hlong | hlen
  · rw [hostPlan_tooLong hlong] at h; cases h
  cases hfit : operandsFit width s e with
  | false =>
    obtain ⟨r, -, hreport⟩ := hostPlan_of_not_operandsFit (cfg := cfg) (init := init) (poly := poly) hlen hfit
    rw [hreport] at h
    cases h
  | true =>
    rw [hostPlan_of_operandsFit hlen hfit] at h
    cases h
    exact ⟨hlen, rfl, rfl, rfl⟩

end Plan

/-- The writes of a call whose operands fit hold the operands, each in its register's encoding (R121). -/
theorem callOperands_encode {input : List Byte} {init poly : Nat} {st en : Int} (hlen : input.length ≤ maxInputLen)
    (hst : fitsIndex st = true) (hen : fitsIndex en = true) :
    ∀ p ∈ callOperands input init poly st en,
      (p.1 = .len → p.2.toNat = input.length) ∧ (p.1 = .init → p.2.toNat = init % 2 ^ 32) ∧
        (p.1 = .poly → p.2.toNat = poly % 2 ^ 32) ∧ (p.1 = .start → p.2.toInt = st) ∧
        (p.1 = .end_ → p.2.toInt = en) := by
  intro p hp
  simp only [callOperands, List.mem_cons, List.not_mem_nil, or_false] at hp
  rcases hp with rfl | rfl | rfl | rfl | rfl
  · exact ⟨fun _ => toNat_ofNat_length hlen, nofun, nofun, nofun, nofun⟩
  · exact ⟨nofun, fun _ => BitVec.toNat_ofNat init 32, nofun, nofun, nofun⟩
  · exact ⟨nofun, nofun, fun _ => BitVec.toNat_ofNat poly 32, nofun, nofun⟩
  · exact ⟨nofun, nofun, nofun, fun _ => toInt_ofInt_of_fitsIndex hst, nofun⟩
  · exact ⟨nofun, nofun, nofun, nofun, fun _ => toInt_ofInt_of_fitsIndex hen⟩

/-- Settles O54: the input too long, an operand without an encoding, and the writes with their encodings. -/
theorem hostPlanFollowsItsOperands : Obligations.HostPlanFollowsItsOperands := by
  refine fun cfg input width init poly st en => ⟨hostPlan_tooLong, fun hlen hbounds => ?_,
    fun hlen hw hw' hst hst' hen hen' => ?_⟩
  · refine hostPlan_of_not_operandsFit hlen (Bool.eq_false_iff.2 fun hfit => hbounds ?_)
    obtain ⟨⟨hwidth, hst⟩, hen⟩ := operandsFit_iff.1 hfit
    exact ⟨(fitsWidth_iff.1 hwidth).1, (fitsWidth_iff.1 hwidth).2, (fitsIndex_iff.1 hst).1, (fitsIndex_iff.1 hst).2,
      fitsIndex_iff.1 hen⟩
  · have hwidth := fitsWidth_iff.2 ⟨hw, hw'⟩
    have hst := fitsIndex_iff.2 ⟨hst, hst'⟩
    have hen := fitsIndex_iff.2 ⟨hen, hen'⟩
    exact ⟨_, _, hostPlan_of_operandsFit hlen (operandsFit_iff.2 ⟨⟨hwidth, hst⟩, hen⟩), opWidth_ofInt hwidth, rfl,
      callOperands_encode hlen hst hen⟩

end Sys2Proof.Machine
end

section
/-! SUPPORT. A whole call of the host: the run of its writes, of the fill of `BUF` and of the engine's steps, and what the host
then returns (R121, R123, R143, R145). -/
namespace Sys2Proof.Machine

/-! ## Runs of scheduled events -/

/-- The events `evs`, in front of whatever else is scheduled, take the platform `s` to `t`. -/
def State.RunsTo (s : State) (evs : List Event) (t : State) : Prop :=
  ∀ rest, Host.Core.run Sys2Proof.core evs.length (s.setSched (evs ++ rest)) = .next (t.setSched rest)

theorem State.RunsTo.refl (s : State) : s.RunsTo [] s := fun _ => rfl

theorem State.RunsTo.single {s t : State} {ev : Event}
    (h : ∀ rest, step (s.setSched (ev :: rest)) = .next (t.setSched rest)) : s.RunsTo [ev] t :=
  fun rest => (run_succ_of_next 0 (h rest)).trans (run_zero _)

theorem State.RunsTo.append {s u t : State} {evs evs' : List Event} (h : s.RunsTo evs u) (h' : u.RunsTo evs' t) :
    s.RunsTo (evs ++ evs') t := by
  intro rest
  rw [List.length_append, List.append_assoc]
  exact (run_add_of_next _ _ (h _)).trans (h' rest)

/-! ## A write in the window of the selected instance -/

/-- A lookup passes over the instances whose window does not hold the address. -/
theorem windowIndex_append {l r : List Engine} {e : Engine} {addr : Nat} (hin : e.inWindow addr = true)
    (hl : ∀ x ∈ l, x.inWindow addr = false) : windowIndex (l ++ e :: r) addr = some l.length := by
  induction l with
  | nil => simp only [List.nil_append, windowIndex, hin, if_true, List.length_nil]
  | cons x l ih =>
    obtain ⟨hx, hl⟩ := List.forall_mem_cons.1 hl
    simp only [List.cons_append, windowIndex, hx, Bool.false_eq_true, if_false, ih hl, List.length_cons]

theorem Engine.inWindow_off (e : Engine) (r : Reg) : e.inWindow (e.base + r.off.toNat) = true := by
  have hoff := r.off.isLt
  simp only [Engine.inWindow, decide_eq_true_eq]
  omega

theorem Engine.apart.not_inWindow {x e : Engine} {addr : Nat} (h : x.apart e) (hin : e.inWindow addr = true) :
    x.inWindow addr = false := by
  simp only [Engine.inWindow, decide_eq_true_eq, decide_eq_false_iff_not] at hin ⊢
  rw [Engine.apart] at h
  omega

theorem busWord_writeAccess (base : Nat) (r : Reg) (v : Word) :
    busWord base (writeAccess base r v) = hbusWord true r.off v := by
  simp only [busWord, writeAccess, Nat.add_sub_cancel_left, BitVec.ofNat_toNat, BitVec.setWidth_eq]

/-- The selected instance is idle, and an access to the window at `base` reaches it: no instance before it answers there
(R58). -/
structure State.ReadyAt (s : State) (base : Nat) : Prop where
  base_eq : s.eng.base = base
  alone : ∀ x ∈ s.left, x.apart s.eng
  idle : s.eng.phase = .idle

/-- What a platform with non-overlapping windows gives (R58, D19). -/
theorem State.readyAt_of_windowsApart {s : State} (h : s.windowsApart) (hidle : s.eng.phase = .idle) :
    s.ReadyAt s.eng.base := by
  obtain ⟨-, -, hleft⟩ := List.pairwise_append.1 h
  exact ⟨rfl, fun x hx => hleft x hx s.eng List.mem_cons_self, hidle⟩

section ReadyAt
variable {s : State} {base : Nat} (h : s.ReadyAt base)
include h

theorem State.ReadyAt.setEng {e : Engine} (hbase : e.base = s.eng.base) (hphase : e.phase = s.eng.phase) :
    (s.setEng e).ReadyAt base := by
  refine ⟨hbase.trans h.base_eq, fun x hx => ?_, hphase.trans h.idle⟩
  rw [Engine.apart, State.setEng_eng, hbase]
  exact h.alone x hx

/-- A lookup of a register in the window finds the selected instance (R58, R71). -/
theorem State.ReadyAt.windowIndex_off (r : Reg) :
    windowIndex s.engines (base + r.off.toNat) = some s.left.length := by
  obtain ⟨rfl, halone, -⟩ := h
  refine windowIndex_append (s.eng.inWindow_off r) fun x hx => ?_
  exact (halone x hx).not_inWindow (s.eng.inWindow_off r)

/-- A scheduled write in the window runs the write of that register on the selected instance (R70, R78). -/
theorem State.ReadyAt.step_write (r : Reg) (v : Word) (rest : List Event) :
    step (s.setSched (.bus (writeAccess base r v) :: rest)) = exec (hostWriteInstr r v) (s.setSched rest) := by
  have hd : decodeHbus (busWord s.eng.base (writeAccess base r v)) = .instr (hostWriteInstr r v) := by
    rw [h.base_eq, busWord_writeAccess, decodeHbus_hbusWord, if_pos rfl]
  apply step_run
  calc fetch (s.setSched (.bus (writeAccess base r v) :: rest))
      = fetchEvent (.bus (writeAccess base r v)) (s.setSched rest) := fetch_cons (State.setSched_sched _ _)
    _ = fetchTransaction (writeAccess base r v) (s.setSched rest) :=
        fetchBus_of_select rfl (h.windowIndex_off r) (select_self (s.setSched rest))
    _ = .run (hostWriteInstr r v) (s.setSched rest) := fetchTransaction_of_decode hd

/-! ## The writes of a call -/

/-- A scheduled write of an operand stores it (R104 to R108). -/
theorem State.ReadyAt.operandWrite_runsTo {r : Reg} (v : Word) (hr : r ≠ .cmd) :
    s.RunsTo [.bus (writeAccess base r v)] (s.setEng (s.eng.storeOperand r v)) :=
  .single fun rest => by
    rw [h.step_write, exec_hostWrite r v _ hr]
    exact hostWrite_idle r v h.idle

/-- A scheduled write of `CMD` is accepted (R100). -/
theorem State.ReadyAt.commandWrite_runsTo (cmd : Word) :
    s.RunsTo [.bus (writeAccess base .cmd cmd)] (s.setEng (acceptCommand s.cfg cmd s.eng)) :=
  .single fun rest => by
    rw [h.step_write, exec_command]
    exact command_idle cmd h.idle

/-- A scheduled fill of `BUF`, at a time at which it may be written (R121, R196). -/
theorem State.ReadyAt.bufFill_runsTo {input : List Byte} (hheld : s.eng.bufHeld = false)
    (hlen : input.length ≤ maxInputLen) :
    s.RunsTo [.bufFill s.left.length input] (s.setBuf (Memory.ofList input)) :=
  .single fun rest => by
    apply step_quiet
    calc fetch (s.setSched (.bufFill s.left.length input :: rest))
        = fetchEvent (.bufFill s.left.length input) (s.setSched rest) := fetch_cons (State.setSched_sched _ _)
      _ = fetchBufChange input.length (Memory.ofList input) (s.setSched rest) :=
          fetchEvent_bufFill_of_select input (select_self (s.setSched rest))
      _ = .quiet ((s.setBuf (Memory.ofList input)).setSched rest) := fetchBufChange_open h.idle hheld hlen

end ReadyAt

/-- The operand writes `ws`, one after the other (R104 to R108). -/
def Engine.storeOperands (e : Engine) (ws : List (Reg × Word)) : Engine :=
  ws.foldl (fun e p => e.storeOperand p.1 p.2) e

/-- Operand writes leave the window address, `PHASE` and the mark of R196. -/
theorem Engine.storeOperands_frame (e : Engine) (ws : List (Reg × Word)) :
    (e.storeOperands ws).base = e.base ∧ (e.storeOperands ws).phase = e.phase ∧
      (e.storeOperands ws).bufHeld = e.bufHeld := by
  induction ws generalizing e with
  | nil => exact ⟨rfl, rfl, rfl⟩
  | cons p ws ih =>
    obtain ⟨-, hbase, -, -, hphase, -, hheld⟩ := storeOperand_frame p.1 p.2 e
    obtain ⟨hbase', hphase', hheld'⟩ := ih (e.storeOperand p.1 p.2)
    exact ⟨hbase'.trans hbase, hphase'.trans hphase, hheld'.trans hheld⟩

/-- Writes of different operands commute. -/
theorem Engine.storeOperand_comm (e : Engine) {r r' : Reg} (v v' : Word) (h : r ≠ r') :
    (e.storeOperand r v).storeOperand r' v' = (e.storeOperand r' v').storeOperand r v := by
  cases r <;> cases r' <;> first | rfl | contradiction

/-- The order of the operand writes does not matter, if no register is written twice (R121). -/
theorem Engine.storeOperands_perm {ws ws' : List (Reg × Word)} (e : Engine) (h : ws.Perm ws')
    (hnodup : (ws.map Prod.fst).Nodup) : e.storeOperands ws = e.storeOperands ws' := by
  refine h.foldl_eq' (fun p hp q hq e => ?_) e
  by_cases hpq : p.1 = q.1
  · rw [List.inj_on_of_nodup_map hnodup hp hq hpq]
  · exact e.storeOperand_comm p.2 q.2 hpq

/-- The instance with another `BUF`. -/
def Engine.withBuf (e : Engine) (m : Memory) : Engine := { e with buf := m }

theorem Engine.storeOperand_withBuf (e : Engine) (r : Reg) (v : Word) (m : Memory) :
    (e.withBuf m).storeOperand r v = (e.storeOperand r v).withBuf m := by
  cases r <;> rfl

/-- Operand writes do not look at `BUF`. -/
theorem Engine.storeOperands_withBuf (e : Engine) (ws : List (Reg × Word)) (m : Memory) :
    (e.withBuf m).storeOperands ws = (e.storeOperands ws).withBuf m := by
  induction ws generalizing e with
  | nil => rfl
  | cons p ws ih => exact (congrArg (Engine.storeOperands · ws) (e.storeOperand_withBuf p.1 p.2 m)).trans (ih _)

/-- Scheduled writes of operands store them all. -/
theorem writeEvents_runsTo {s : State} {base : Nat} {ws : List (Reg × Word)} (h : s.ReadyAt base)
    (hcmd : ∀ p ∈ ws, p.1 ≠ .cmd) :
    s.RunsTo (writeEvents base ws) (s.setEng (s.eng.storeOperands ws)) := by
  induction ws generalizing s with
  | nil => exact State.RunsTo.refl s
  | cons p ws ih =>
    obtain ⟨hp, hws⟩ := List.forall_mem_cons.1 hcmd
    obtain ⟨-, hbase, -, -, hphase, -, -⟩ := storeOperand_frame p.1 p.2 s.eng
    exact (h.operandWrite_runsTo p.2 hp).append (ih (h.setEng hbase hphase) hws)

/-- Scheduled writes of operands, and of `CMD` last (R121). -/
theorem writeEvents_cmd_runsTo {s : State} {base : Nat} {ws : List (Reg × Word)} (cmd : Word) (h : s.ReadyAt base)
    (hcmd : ∀ p ∈ ws, p.1 ≠ .cmd) :
    s.RunsTo (writeEvents base (ws ++ [(.cmd, cmd)]))
      (s.setEng (acceptCommand s.cfg cmd (s.eng.storeOperands ws))) := by
  obtain ⟨hbase, hphase, -⟩ := s.eng.storeOperands_frame ws
  rw [writeEvents, List.map_append]
  exact (writeEvents_runsTo h hcmd).append ((h.setEng hbase hphase).commandWrite_runsTo cmd)

/-- The steps of a call store its operands, some before the fill of `BUF` and some after it, and write `CMD` (R121). -/
theorem callEvents_runsTo {s : State} {base : Nat} {input : List Byte} {before after : List (Reg × Word)} (cmd : Word)
    (h : s.ReadyAt base) (hheld : s.eng.bufHeld = false) (hlen : input.length ≤ maxInputLen)
    (hcmd : ∀ p ∈ before ++ after, p.1 ≠ .cmd) :
    s.RunsTo (callEvents s.left.length base input before after cmd) (s.setEng (acceptCommand s.cfg cmd
      ((s.eng.storeOperands (before ++ after)).withBuf (Memory.ofList input)))) := by
  obtain ⟨hbefore, hafter⟩ := List.forall_mem_append.1 hcmd
  obtain ⟨hbase, hphase, hheld'⟩ := s.eng.storeOperands_frame before
  have hwrites := writeEvents_runsTo h hbefore
  have hfill := (h.setEng hbase hphase).bufFill_runsTo (hheld'.trans hheld) hlen
  have hcommand := writeEvents_cmd_runsTo cmd
    (h.setEng (e := (s.eng.storeOperands before).withBuf (Memory.ofList input)) hbase hphase) hafter
  rw [State.setEng_eng, Engine.storeOperands_withBuf, Engine.storeOperands, Engine.storeOperands,
    ← List.foldl_append] at hcommand
  exact (hwrites.append hfill).append hcommand

/-! ## The steps of the engine -/

theorem stepsTo_runsTo {s : State} {e' : Engine} (h : s.eng.StepsTo s.cfg e') :
    s.RunsTo [.engine s.left.length] (s.setEng e') :=
  .single fun _ => step_of_stepsTo h

/-- The instance takes the first `j` engine steps of its command (R141 to R143). -/
theorem commandAt_runsTo {s : State} {w : Nat} {bs : List Byte} (h : Started s.eng w bs)
    (h0 : CommandAt s.eng w bs 0 s.eng) {j : Nat} (hj : j ≤ 9 * bs.length) :
    ∃ e, CommandAt s.eng w bs j e ∧ s.RunsTo (List.replicate j (.engine s.left.length)) (s.setEng e) := by
  induction j with
  | zero => exact ⟨s.eng, h0, State.RunsTo.refl s⟩
  | succ j ih =>
    obtain ⟨e, hat, hrun⟩ := ih (by omega)
    obtain ⟨e', hstep, hat'⟩ := hat.step (cfg := s.cfg) h (by omega)
    refine ⟨e', hat', ?_⟩
    rw [List.replicate_succ']
    exact hrun.append (stepsTo_runsTo (s := s.setEng e) hstep)

/-- After the last byte the sequencer is at `FINISH`, with the width of the command (R36). -/
theorem CommandAt.finish_of_all {e0 e : Engine} {w : Nat} {bs : List Byte} (h : CommandAt e0 w bs (9 * bs.length) e) :
    e.phase = .finish ∧ e.wsel = e0.wsel := by
  generalize hj : 9 * bs.length = j at h
  cases h with
  | byte q hq => omega
  | reduce q r hq hr => omega
  | finish i => exact ⟨rfl, rfl⟩

/-- `STEP_FINISH` is the step selected at `FINISH` (R75, R139). -/
theorem stepsTo_finish {cfg : Config} {e : Engine} (h : e.phase = .finish) : e.StepsTo cfg
    { e with result := finishValue cfg e.wsel e.crc, status := statusSuccess, phase := .idle } := by
  refine ⟨.stepFinish, by rw [decodeFsm_selector, h], ?_⟩
  rintro u rfl rfl
  exact exec_stepFinish u

/-- What `STEP_FINISH` makes of a value of the width (R139, R142). -/
theorem finishValue_setWidth {x : WSel} {w : Nat} (cfg : Config) (h : x.width = some w) (c : BitVec w) :
    finishValue cfg x (c.setWidth 32) = (c ^^^ cfg.xorOut.setWidth w).setWidth 32 := by
  have hw := (WSel.width_bounds h).2
  rw [finishValue, WSel.and_mask h, WSel.and_mask h, BitVec.setWidth_xor, setWidth_word_setWidth hw,
    setWidth_word_setWidth hw]

/-- The engine runs a started command to its end in `9n + 1` of its steps (R139, R143). -/
theorem started_runsTo_end {s : State} {w : Nat} {bs : List Byte} (h : Started s.eng w bs)
    (h0 : CommandAt s.eng w bs 0 s.eng) :
    ∃ e, s.RunsTo (List.replicate (9 * bs.length + 1) (.engine s.left.length)) (s.setEng e) ∧ e.phase = .idle ∧
      e.status = statusSuccess ∧ e.result = (s.eng.coreOf w bs ^^^ s.cfg.xorOut.setWidth w).setWidth 32 := by
  obtain ⟨e, hat, hrun⟩ := commandAt_runsTo h h0 le_rfl
  obtain ⟨hfinish, hwsel⟩ := hat.finish_of_all
  have hcrc := hat.crc le_rfl
  rw [List.take_length] at hcrc
  have hall := hrun.append (stepsTo_runsTo (s := s.setEng e) (stepsTo_finish hfinish))
  rw [State.setEng_left, ← List.replicate_succ'] at hall
  refine ⟨_, hall, rfl, rfl, ?_⟩
  show finishValue s.cfg e.wsel e.crc = _
  rw [hwsel, hcrc, finishValue_setWidth s.cfg h.width]

/-! ## The instance with the operands of a call -/

/-- The instance with the operands of a call in its registers and the input in `BUF`. -/
def Engine.loaded (e : Engine) (input : List Byte) (init poly : Nat) (st en : Int) : Engine :=
  (e.storeOperands (callOperands input init poly st en)).withBuf (Memory.ofList input)

section Loaded
variable {input : List Byte} {width st en : Int} (e : Engine) (init poly : Nat)

theorem Engine.opStart_loaded (h : fitsIndex st = true) : opStart (e.loaded input init poly st en) = st :=
  toInt_ofInt_of_fitsIndex h

theorem Engine.opEnd_loaded (h : fitsIndex en = true) : opEnd (e.loaded input init poly st en) = en :=
  toInt_ofInt_of_fitsIndex h

theorem Engine.opLen_loaded (h : input.length ≤ maxInputLen) : opLen (e.loaded input init poly st en) = input.length :=
  toNat_ofNat_length h

/-- The functional core on the registers is the one on the operands, masked to the width (R140, R142). -/
theorem Engine.coreOf_loaded {w : Nat} (hw : w ≤ 32) (bs : List Byte) :
    (e.loaded input init poly st en).coreOf w bs = crcCore (BitVec.ofNat w init) (BitVec.ofNat w poly) bs := by
  show crcCore ((BitVec.ofNat 32 init).setWidth w) ((BitVec.ofNat 32 poly).setWidth w) bs = _
  rw [BitVec.setWidth_ofNat_of_le hw, BitVec.setWidth_ofNat_of_le hw]

theorem covered_length (hst : 0 ≤ st) (hse : st ≤ en) (hen : en < input.length) :
    ((covered input st en).length : Int) = en - st + 1 := by
  rw [covered, List.length_take, List.length_drop]
  omega

/-- The input in `BUF` holds the bytes of the range (R142). -/
theorem Engine.covers_loaded (hfitS : fitsIndex st = true) (hfitE : fitsIndex en = true) (hst : 0 ≤ st) (hse : st ≤ en)
    (hen : en < input.length) : (e.loaded input init poly st en).covers (covered input st en) := by
  rw [Engine.covers, e.opStart_loaded init poly hfitS, e.opEnd_loaded init poly hfitE]
  refine ⟨covered_length hst hse hen, fun j hj => ?_⟩
  show (Memory.ofList input).read (st.toNat + j) = _
  simp only [Memory.read_ofList, covered, List.getElem_take, List.getElem_drop]
  exact List.getElem?_eq_getElem _

/-- Validation of the registers is validation of the operands (R77, R161). -/
theorem Engine.validate_loaded (p : MinRange) (hlen : input.length ≤ maxInputLen) (hfit : operandsFit width st en = true) :
    validate p (opWidth (BitVec.ofInt 32 width)) (opStart (e.loaded input init poly st en))
      (opEnd (e.loaded input init poly st en)) (opLen (e.loaded input init poly st en)) =
    validate p width st en input.length := by
  obtain ⟨⟨hwidth, hst⟩, hen⟩ := operandsFit_iff.1 hfit
  rw [opWidth_ofInt hwidth, e.opStart_loaded init poly hst, e.opEnd_loaded init poly hen,
    e.opLen_loaded init poly hlen]

end Loaded

/-! ## The call -/

section Call
variable {s : State} {input : List Byte} {width st en : Int} {init poly : Nat}

/-- The steps of a call, in any order that R121 allows, load its operands and write `CMD`. -/
theorem callEvents_runsTo_loaded {base : Nat} {before after : List (Reg × Word)} (cmd : Word) (h : s.ReadyAt base)
    (hheld : s.eng.bufHeld = false) (hlen : input.length ≤ maxInputLen)
    (hperm : (before ++ after).Perm (callOperands input init poly st en)) :
    s.RunsTo (callEvents s.left.length base input before after cmd)
      (s.setEng (acceptCommand s.cfg cmd (s.eng.loaded input init poly st en))) := by
  have hregs : ((before ++ after).map Prod.fst).Perm [.len, .init, .poly, .start, .end_] := hperm.map Prod.fst
  have hcmd : ∀ p ∈ before ++ after, p.1 ≠ .cmd := by
    intro p hp heq
    have hmem := hregs.subset (List.mem_map_of_mem hp)
    rw [heq] at hmem
    exact absurd hmem (by decide)
  have hcall := callEvents_runsTo cmd h hheld hlen hcmd
  rw [s.eng.storeOperands_perm hperm (hregs.nodup_iff.2 (by decide))] at hcall
  exact hcall

/-- After a call that fails validation the instance is idle, and the host returns the error (R123, R163). -/
theorem failedCall_returns {e e' : Engine} {cfg : Config} {r : Reason} (hlen : input.length ≤ maxInputLen)
    (hfit : operandsFit width st en = true) (hidle : e.phase = .idle)
    (hv : validate cfg.minRange width st en input.length = some r)
    (he' : e' = acceptCommand cfg (BitVec.ofInt 32 width) (e.loaded input init poly st en)) :
    e'.phase = .idle ∧ hostReturn cfg width.toNat e'.status e'.result =
      some (computeCRC cfg input width init poly st en) := by
  rw [acceptCommand_error ((e.validate_loaded init poly _ hlen hfit).trans hv)] at he'
  rw [he', computeCRC, hv]
  exact ⟨hidle, hostReturn_statusError _ _ _ r⟩

/-- After a call that passes validation the instance is idle within `9n + 1` engine steps, and the host returns the rendered
value (R123, R143). -/
theorem startedCall_returns {e : Engine} (hlen : input.length ≤ maxInputLen) (hfit : operandsFit width st en = true)
    (hv : validate s.cfg.minRange width st en input.length = none)
    (heng : s.eng = acceptCommand s.cfg (BitVec.ofInt 32 width) (e.loaded input init poly st en)) :
    ∃ e', s.RunsTo (List.replicate (9 * (en - st + 1).toNat + 1) (.engine s.left.length)) (s.setEng e') ∧
      e'.phase = .idle ∧ hostReturn s.cfg width.toNat e'.status e'.result =
        some (computeCRC s.cfg input width init poly st en) := by
  obtain ⟨⟨hwidth, hfitS⟩, hfitE⟩ := operandsFit_iff.1 hfit
  obtain ⟨hst, hse, hen⟩ := validate_range hv
  obtain ⟨x, hx⟩ := validate_width hv
  have hw : x.width = some width.toNat := by
    rcases wselOfWidth_some hx with ⟨rfl, rfl⟩ | ⟨rfl, rfl⟩ | ⟨rfl, rfl⟩ <;> rfl
  have hw32 := (WSel.width_bounds hw).2
  obtain ⟨hstarted, hat, hinit, hpoly⟩ := commandAt_start ((e.validate_loaded init poly _ hlen hfit).trans hv)
    ((congrArg wselOfWidth (opWidth_ofInt hwidth)).trans hx) hw (e.covers_loaded init poly hfitS hfitE hst hse hen)
  rw [← heng] at hstarted hat hinit hpoly
  obtain ⟨e', hrun, hidle, hstatus, hresult⟩ := started_runsTo_end hstarted hat
  have hcore : s.eng.coreOf width.toNat (covered input st en) =
      crcCore (BitVec.ofNat _ init) (BitVec.ofNat _ poly) (covered input st en) := by
    rw [Engine.coreOf, hinit, hpoly]
    exact e.coreOf_loaded init poly hw32 _
  have hn : (covered input st en).length = (en - st + 1).toNat := by
    have hcovered := covered_length hst hse hen
    omega
  rw [hn] at hrun
  refine ⟨e', hrun, hidle, ?_⟩
  rw [hstatus, hostReturn_statusSuccess, hresult, setWidth_word_setWidth hw32, hcore, computeCRC, hv]
  rfl

/-- The steps of a call and of the engine: the instance ends idle, and the host returns `computeCRC` of the operands. -/
theorem call_returns {before after : List (Reg × Word)} (h : s.ReadyAt s.eng.base) (hheld : s.eng.bufHeld = false)
    (hlen : input.length ≤ maxInputLen) (hfit : operandsFit width st en = true)
    (hperm : (before ++ after).Perm (callOperands input init poly st en)) :
    ∃ e, s.RunsTo (callEvents s.left.length s.eng.base input before after (BitVec.ofInt 32 width) ++
        List.replicate (if validate s.cfg.minRange width st en input.length = none then 9 * (en - st + 1).toNat + 1 else 0)
          (.engine s.left.length)) (s.setEng e) ∧
      e.phase = .idle ∧ hostReturn s.cfg width.toNat e.status e.result =
        some (computeCRC s.cfg input width init poly st en) := by
  have hcall := callEvents_runsTo_loaded (BitVec.ofInt 32 width) h hheld hlen hperm
  cases hv : validate s.cfg.minRange width st en input.length with
  | some r => exact ⟨_, hcall.append (State.RunsTo.refl _), failedCall_returns hlen hfit h.idle hv rfl⟩
  | none =>
    obtain ⟨e, hrun, hreturns⟩ := startedCall_returns (s := s.setEng (acceptCommand s.cfg (BitVec.ofInt 32 width)
      (s.eng.loaded input init poly st en))) hlen hfit hv rfl
    exact ⟨e, hcall.append hrun, hreturns⟩

end Call

/-- Settles O53: a plan of transactions writes the operands of a call whose operands fit, and the run of its steps is
`call_returns`. -/
theorem hostCallReturnsComputeCRC : Obligations.HostCallReturnsComputeCRC := by
  intro s input operands before after cmd width init poly st en evs hapart hidle hheld hplan hperm hevs
  obtain ⟨hlen, hfit, rfl, rfl⟩ := hostPlan_transactions hplan
  obtain ⟨e, hrun, hreturns⟩ := call_returns (State.readyAt_of_windowsApart hapart hidle) hheld hlen hfit hperm
  rw [← hevs] at hrun
  have hend := hrun []
  rw [List.append_nil] at hend
  exact ⟨(s.setEng e).setSched [], e, hend, State.engines_getElem_selected (s.setEng e), hreturns⟩

end Sys2Proof.Machine
end

section
/-! SUPPORT. The functional core bit by bit: the network (R130, R131), the reducers (R132 to R134) and the linearity of the
whole core over GF(2) (R147). -/
namespace Sys2Proof.Machine

/-! ## The network and the reducers -/

/-- The network bit by bit, at every bit and every width (R131). -/
theorem polyXorNetwork_getLsbD {w : Nat} (c p : BitVec w) (j : Nat) :
    (polyXorNetwork c p).getLsbD j = (c.getLsbD (j + 1) ^^ (c.getLsbD 0 && p.getLsbD j)) := by
  rw [polyXorNetwork]
  cases c.getLsbD 0 <;> simp [BitVec.getLsbD_ushiftRight, Nat.add_comm]

/-- Settles O31: a shift by one halves, and neither branch reaches `2^w`. -/
theorem networkIsShiftAndConditionalXor : Obligations.NetworkIsShiftAndConditionalXor := by
  intro w _ c p
  have hhalf : c.toNat / 2 < 2 ^ w := (Nat.div_le_self _ _).trans_lt c.isLt
  have hodd : c.getLsbD 0 = decide (c.toNat % 2 = 1) := Nat.testBit_zero _
  rw [Nat.mod_eq_of_lt hhalf, Nat.mod_eq_of_lt (Nat.xor_lt_two_pow hhalf p.isLt), polyXorNetwork, hodd]
  by_cases h : c.toNat % 2 = 1
  · simp [h, Nat.shiftRight_one]
  · simp [h, Nat.shiftRight_one]

/-- Settles O32: `polyXorNetwork_getLsbD`, and a value of `w` bits has no bit `w`. -/
theorem networkBitByBit : Obligations.NetworkBitByBit := by
  intro w hw c p
  refine ⟨fun j _ => polyXorNetwork_getLsbD c p j, ?_⟩
  have htop : c.getLsbD (w - 1 + 1) = false := BitVec.getLsbD_of_ge _ _ (by omega)
  rw [polyXorNetwork_getLsbD, htop, Bool.false_xor]

/-- Settles O33: the operands and the value of each reducer are its low bits, and the mask keeps those of the polynomial. -/
theorem reducersApplyTheNetworkAtTheirWidth : Obligations.ReducersApplyTheNetworkAtTheirWidth := by
  intro c p
  have hmask8 : (p &&& 0xFF).setWidth 8 = p.setWidth 8 :=
    (BitVec.setWidth_and).trans (BitVec.and_allOnes)
  have hmask16 : (p &&& 0xFFFF).setWidth 16 = p.setWidth 16 :=
    (BitVec.setWidth_and).trans (BitVec.and_allOnes)
  refine ⟨?_, ?_, rfl, ?_, ?_, WSel.reducer_lt (x := .w8) rfl c p, WSel.reducer_lt (x := .w16) rfl c p⟩
  · exact BitVec.toNat_setWidth_of_le (by decide)
  · exact BitVec.toNat_setWidth_of_le (by decide)
  · rw [crc8Reducer, crc8Reducer, hmask8]
  · rw [crc16Reducer, crc16Reducer, hmask16]

/-! ## Linearity -/

section Linear
variable {w : Nat} (p c c' : BitVec w)

/-- The network is linear in the register. -/
theorem polyXorNetwork_xor : polyXorNetwork (c ^^^ c') p = polyXorNetwork c p ^^^ polyXorNetwork c' p := by
  refine BitVec.eq_of_getLsbD_eq fun j _ => ?_
  simp only [BitVec.getLsbD_xor, polyXorNetwork_getLsbD, Bool.and_xor_distrib_right, Bool.xor_assoc,
    Bool.xor_left_comm]

theorem reduceTimes_xor (n : Nat) : reduceTimes n p (c ^^^ c') = reduceTimes n p c ^^^ reduceTimes n p c' := by
  induction n generalizing c c' with
  | zero => rfl
  | succ n ih => rw [reduceTimes, polyXorNetwork_xor, ih, ← reduceTimes, ← reduceTimes]

/-- A byte more is linear in the register and the byte together (R141). -/
theorem processByte_xor (b b' : Byte) :
    processByte p (c ^^^ c') (b ^^^ b') = processByte p c b ^^^ processByte p c' b' := by
  rw [processByte, processByte, processByte, ← reduceTimes_xor, BitVec.setWidth_xor]
  congr 1
  ac_rfl

theorem crcCore_cons (b : Byte) (bs : List Byte) : crcCore c p (b :: bs) = crcCore (processByte p c b) p bs := rfl

/-- The core is linear in the initial value and the bytes together (R147). -/
theorem crcCore_xor {bs bs' : List Byte} (h : bs.length = bs'.length) :
    crcCore (c ^^^ c') p (List.zipWith (· ^^^ ·) bs bs') = crcCore c p bs ^^^ crcCore c' p bs' := by
  induction bs generalizing bs' c c' with
  | nil => cases bs' with
    | nil => rfl
    | cons b' bs' => cases h
  | cons b bs ih => cases bs' with
    | nil => cases h
    | cons b' bs' =>
      rw [List.zipWith_cons_cons, crcCore_cons, crcCore_cons, crcCore_cons, processByte_xor, ih _ _ (Nat.succ.inj h)]

/-- On zeros the core is its own XOR with itself. -/
theorem crcCore_zero (n : Nat) : crcCore 0#w p (List.replicate n 0) = 0#w := by
  have hlinear := crcCore_xor p 0#w 0#w (bs := List.replicate n 0) rfl
  rw [List.zipWith_replicate', BitVec.xor_self, BitVec.xor_self, BitVec.xor_self] at hlinear
  exact hlinear

end Linear

/-- Settles O34: the network is linear, and so are its iterations and the fold over the bytes. -/
theorem crcCoreIsLinear : Obligations.CrcCoreIsLinear :=
  fun _ _ p => ⟨fun a a' _ _ h => crcCore_xor p a a' h, crcCore_zero p⟩

end Sys2Proof.Machine
end

section
/-! SUPPORT. The rendering of a result, digit by digit (R144). -/
namespace Sys2Proof.Machine

/-- The digit of four bits stands at their value in the table (R144). -/
theorem hexTable_getElem?_toNat (d : BitVec 4) : hexTable[d.toNat]? = some (hexDigit d) := by
  have hlt : d.toNat < hexTable.length := d.isLt
  rw [hexDigit, List.getD_eq_getElem _ _ hlt, List.getElem?_eq_getElem hlt]

/-- Settles O55: character `k` is the digit of four bits, whose value is the quotient's last hexadecimal digit. -/
theorem formatHexHasItsDigits : Obligations.FormatHexHasItsDigits := by
  intro w _ v
  refine ⟨by rw [hexDigits, List.length_map, List.length_range], fun k hk => ?_, rfl, rfl⟩
  have hbits : (v.extractLsb' (w - 4 - 4 * k) 4).toNat = v.toNat / 2 ^ (w - 4 - 4 * k) % 16 := by
    rw [BitVec.extractLsb'_toNat, Nat.shiftRight_eq_div_pow]
  rw [← hbits, hexTable_getElem?_toNat, hexDigits, List.getElem?_map, List.getElem?_range hk, Option.map_some]

end Sys2Proof.Machine
end

section
/-! SUPPORT. Steps on one instance and on another: what a scheduled event does to its instance, whatever stands around
it (R150, R174). -/
namespace Sys2Proof.Machine

/-! ## An event and its instance -/

theorem fetch_setSched_cons (s : State) (ev : Event) (rest : List Event) :
    fetch (s.setSched (ev :: rest)) = fetchEvent ev (s.setSched rest) :=
  fetch_cons (State.setSched_sched _ _)

/-- An event finds its instance, selected or not (R174). -/
theorem fetchEvent_select {s u : State} {ev : Event} {k : Nat} (hk : ev.target = some k) (hu : s.select k = some u) :
    fetchEvent ev s = fetchEvent ev u := by
  obtain ⟨-, rfl, -⟩ := State.select_eq hu
  cases ev with
  | bus a => cases hk
  | engine j => cases hk; simp only [fetchEvent, hu, select_self]
  | reset j => cases hk; simp only [fetchEvent, hu, select_self]
  | bufWrite j a b => cases hk; simp only [fetchEvent, hu, select_self]
  | bufFill j bytes => cases hk; simp only [fetchEvent, hu, select_self]

/-- The event takes an instance in state `e` to `e'`, on every platform with the parameters `cfg` that has it selected. -/
def Event.TakesTo (cfg : Config) (ev : Event) (e e' : Engine) : Prop :=
  ∀ u : State, u.eng = e → u.cfg = cfg → ev.target = some u.left.length →
    ∀ rest, step (u.setSched (ev :: rest)) = .next ((u.setEng e').setSched rest)

/-- `t` is the platform `s` with `e'` in the place of instance `k` and `rest` still to come. -/
structure State.Replaced (s : State) (k : Nat) (e' : Engine) (rest : List Event) (t : State) : Prop where
  engines : t.engines = s.engines.set k e'
  cfg : t.cfg = s.cfg
  sched : t.sched = rest
  lastRead : t.lastRead = s.lastRead

/-- A scheduled event takes the same step with its instance selected (R174). -/
theorem step_select {s u : State} {ev : Event} {k : Nat} {rest : List Event} (hk : ev.target = some k)
    (hu : (s.setSched rest).select k = some u) : step (s.setSched (ev :: rest)) = step (u.setSched (ev :: rest)) := by
  obtain ⟨-, -, -, -, rfl, -⟩ := State.select_eq hu
  have hfetch : fetch (s.setSched (ev :: u.sched)) = fetch (u.setSched (ev :: u.sched)) :=
    (fetch_setSched_cons s ev _).trans ((fetchEvent_select hk hu).trans (fetch_setSched_cons u ev _).symm)
  rw [step, step, hfetch]

/-- What an event does to its instance, it does on every platform that has the instance. -/
theorem Event.TakesTo.step {s : State} {ev : Event} {k : Nat} {e e' : Engine} (h : ev.TakesTo s.cfg e e')
    (hk : ev.target = some k) (he : s.engines[k]? = some e) (rest : List Event) :
    ∃ t, Machine.step (s.setSched (ev :: rest)) = .next t ∧ s.Replaced k e' rest t := by
  obtain ⟨u, hsel, ⟨hengs, hlen, -, hcfg, hread⟩, heng⟩ := State.select_turnOf rest he
  refine ⟨_, (step_select hk hsel).trans (h u heng hcfg (hlen ▸ hk) rest), ?_, hcfg, rfl, hread⟩
  rw [State.setSched_engines, State.setEng_engines, hengs, hlen]

/-- An engine step looks at its instance and the parameters only (R150). -/
theorem stepsTo_of_exec {i : Instr} {s t : State} (hd : decodeFsm s.eng.selector = .instr i)
    (hex : exec i s = .next t) : s.eng.StepsTo s.cfg t.eng := by
  refine ⟨i, hd, fun u hu hcfg => ?_⟩
  obtain ⟨hi, -⟩ := selector_isEngineStep hd
  rcases hi with rfl | rfl | rfl | rfl | rfl
  · cases hb : s.eng.buf.read s.eng.idx.toNat with
    | none => rw [exec_stepXorByte_of_none hb] at hex; cases hex
    | some b =>
      rw [exec_stepXorByte_of_read hb] at hex
      cases hex
      rw [← hu] at hb ⊢
      exact exec_stepXorByte_of_read hb
  · cases hex; rw [← hu]; rfl
  · cases hex; rw [← hu]; rfl
  · cases hex; rw [← hu]; rfl
  · cases hex; rw [← hu, ← hcfg]; rfl

/-- A step of the engine is its instance's own (R12, R35). -/
theorem Engine.StepsTo.takesTo {cfg : Config} {e e' : Engine} {k : Nat} (h : e.StepsTo cfg e') :
    (Event.engine k).TakesTo cfg e e' := by
  rintro u rfl rfl hk rest
  cases hk
  exact step_of_stepsTo (s := u) h

/-- A change of `BUF` that is admitted is admitted on every platform with the instance. -/
theorem fetchBufChange_of_quiet {n : Nat} {m : Memory} {s t u : State} (h : fetchBufChange n m s = .quiet t)
    (hu : u.eng = s.eng) : fetchBufChange n m u = .quiet (u.setEng { s.eng with buf := m }) := by
  obtain ⟨hidle, hheld, -⟩ := fetchBufChange_quiet h
  by_cases hn : n ≤ maxInputLen
  · rw [← hu] at hidle hheld ⊢
    exact fetchBufChange_open hidle hheld hn
  · rw [fetchBufChange_tooLong hidle hheld (by omega)] at h
    cases h

/-- The instance that an event acts on, when it is the selected one. -/
theorem select_target {s : State} {k : Nat} (h : some k = some s.left.length) : s.select k = some s :=
  Option.some.inj h ▸ select_self s

/-- An event that changes `BUF` of the selected instance, and goes on, does so on every platform with the instance. -/
theorem takesTo_of_bufChange {ev : Event} {n : Nat} {m : Engine → Memory} {s t : State} {rest : List Event}
    (hev : ∀ u : State, ev.target = some u.left.length → fetchEvent ev u = fetchBufChange n (m u.eng) u)
    (hk : ev.target = some s.left.length) (h : step (s.setSched (ev :: rest)) = .next t) :
    ev.TakesTo s.cfg s.eng { s.eng with buf := m s.eng } := by
  have hfetch : ∀ (u : State) l, ev.target = some u.left.length →
      fetch (u.setSched (ev :: l)) = fetchBufChange n (m u.eng) (u.setSched l) :=
    fun u l hu => (fetch_setSched_cons u ev l).trans (hev (u.setSched l) hu)
  have hquiet : fetchBufChange n (m s.eng) (s.setSched rest) = .quiet t := by
    rcases step_cases h with ⟨i, u, hf, -⟩ | hq
    · exact absurd ((hfetch s rest hk).symm.trans hf) fetchBufChange_not_run
    · exact (hfetch s rest hk).symm.trans hq
  intro u hu _ huk l
  have hquiet' := fetchBufChange_of_quiet (u := u.setSched l) hquiet hu
  rw [← hu] at hquiet'
  exact step_quiet ((hfetch u l huk).trans (hu ▸ hquiet'))

/-- The turn of an idle instance's engine leaves it (R176). -/
theorem takesTo_of_idle {cfg : Config} {e : Engine} {k : Nat} (h : e.phase = .idle) :
    (Event.engine k).TakesTo cfg e e := by
  rintro u rfl - hk rest
  have hfetch := (fetch_setSched_cons u (.engine k) rest).trans
    (fetchEvent_engine_of_select (s := u.setSched rest) (select_target hk))
  exact step_quiet (hfetch.trans (fetchEngine_idle h))

/-- A reset puts its instance at its reset values, whatever it was doing (R190). -/
theorem takesTo_reset {cfg : Config} {e : Engine} {k : Nat} : (Event.reset k).TakesTo cfg e e.doReset := by
  rintro u rfl - hk rest
  exact step_quiet ((fetch_setSched_cons u (.reset k) rest).trans
    (fetchEvent_reset_of_select (s := u.setSched rest) (select_target hk)))

/-- A scheduled event that goes on does the same to its instance on every platform: an engine's turn, a reset and a change of
`BUF` look at nothing around the instance (R150, R174). -/
theorem exists_takesTo {s t : State} {ev : Event} {rest : List Event} (hk : ev.target = some s.left.length)
    (h : step (s.setSched (ev :: rest)) = .next t) : ∃ e', ev.TakesTo s.cfg s.eng e' := by
  cases ev with
  | bus a => cases hk
  | engine k =>
    have hfetch := (fetch_setSched_cons s (.engine k) rest).trans
      (fetchEvent_engine_of_select (s := s.setSched rest) (select_target hk))
    rcases step_cases h with ⟨i, u, hf, hex⟩ | hq
    · obtain ⟨rfl, hd⟩ := fetchEngine_run (hfetch.symm.trans hf)
      exact ⟨t.eng, (stepsTo_of_exec hd hex).takesTo⟩
    · exact ⟨s.eng, takesTo_of_idle (fetchEngine_quiet (hfetch.symm.trans hq)).2⟩
  | reset k => exact ⟨_, takesTo_reset⟩
  | bufWrite k a b =>
    exact ⟨_, takesTo_of_bufChange (m := fun e => e.buf.write a b)
      (fun u hu => fetchEvent_bufWrite_of_select a b (select_target hu)) hk h⟩
  | bufFill k bytes =>
    exact ⟨_, takesTo_of_bufChange (m := fun _ => Memory.ofList bytes)
      (fun u hu => fetchEvent_bufFill_of_select bytes (select_target hu)) hk h⟩

theorem actor_of_target {s : State} {ev : Event} {k : Nat} (rest : List Event) (hk : ev.target = some k) :
    (s.setSched (ev :: rest)).actor = some k := by
  cases ev with
  | bus a => cases hk
  | _ => exact hk

/-- Everything a scheduled event other than a bus access can do. -/
theorem step_target_cases {s t : State} {ev : Event} {k : Nat} {rest : List Event} (hk : ev.target = some k)
    (h : step (s.setSched (ev :: rest)) = .next t) :
    ∃ e e', s.engines[k]? = some e ∧ ev.TakesTo s.cfg e e' ∧ s.Replaced k e' rest t := by
  obtain ⟨k', e, -, hact, he, -⟩ := step_replaces_actor h
  obtain rfl : k' = k := Option.some.inj (hact.symm.trans (actor_of_target rest hk))
  obtain ⟨u, hsel, ⟨-, hlen, -, hcfg, -⟩, rfl⟩ := State.select_turnOf rest he
  have hstep : step (u.setSched (ev :: rest)) = .next t := (step_select hk hsel).symm.trans h
  obtain ⟨e', htakes⟩ := exists_takesTo (hlen ▸ hk) hstep
  rw [hcfg] at htakes
  obtain ⟨t', ht', hrep⟩ := htakes.step (s := s) hk he rest
  obtain rfl : t' = t := Host.Outcome.next.inj (ht'.symm.trans h)
  exact ⟨_, e', he, htakes, hrep⟩

/-- Settles O44: the first event leaves the other's instance as it was, so each does the same in either order, to its own
element of the list. -/
theorem stepsOfDifferentInstancesCommute : Obligations.StepsOfDifferentInstancesCommute := by
  intro s a x y j k hx hy hjk hrun
  obtain ⟨s₁, hs₁, hrun₁⟩ := run_succ_cases hrun
  obtain ⟨a', ha, hend⟩ := run_succ_cases hrun₁
  cases hend
  obtain ⟨e, e', he, hxe, hengs₁, hcfg₁, hsched₁, hread₁⟩ := step_target_cases hx hs₁
  rw [← s₁.setSched_sched_self, hsched₁] at ha
  obtain ⟨f, f', hf, hyf, hengs, hcfg, hsched, hread⟩ := step_target_cases hy ha
  rw [hengs₁, List.getElem?_set_ne hjk] at hf
  rw [hcfg₁] at hyf
  obtain ⟨s₂, hs₂, hengs₂, hcfg₂, hsched₂, hread₂⟩ := hyf.step hy hf [x]
  have he₂ : s₂.engines[j]? = some e := by rw [hengs₂, List.getElem?_set_ne hjk.symm, he]
  obtain ⟨b, hb, hengs', hcfg', hsched', hread'⟩ := Event.TakesTo.step (s := s₂) (hcfg₂ ▸ hxe) hx he₂ []
  rw [← hsched₂, State.setSched_sched_self] at hb
  refine ⟨b, (run_succ_of_next 1 hs₂).trans ((run_succ_of_next 0 hb).trans (run_zero b)), ?_, ?_, ?_, ?_⟩
  · rw [hengs', hengs₂, hengs, hengs₁, List.set_comm _ _ hjk]
  · rw [hcfg', hcfg₂, hcfg, hcfg₁]
  · rw [hread', hread₂, hread, hread₁]
  · rw [hsched', hsched]

end Sys2Proof.Machine
end

section
/-! SUPPORT. A command in progress, alone and among the steps of the other agents (R119, R142, R143, R164). -/
namespace Sys2Proof.Machine

/-! ## The end of a command -/

/-- An accepted command reports that it is in progress (R100). -/
theorem acceptCommand_statusBusy {cfg : Config} {v : Word} {e : Engine} {x : WSel}
    (hv : validate cfg.minRange (opWidth v) (opStart e) (opEnd e) (opLen e) = none)
    (hx : wselOfWidth (opWidth v) = some x) : statusBusy (acceptCommand cfg v e).status = true := by
  rw [acceptCommand_start hv hx, Engine.startCommand_status]
  decide

/-- The functional core on the registers, with the operands as numbers (R140, R142). -/
theorem Engine.coreOf_eq_crcCore {e e0 : Engine} (w : Nat) (bs : List Byte) (hinit : e0.init = e.init)
    (hpoly : e0.poly = e.poly) :
    e0.coreOf w bs = crcCore (BitVec.ofNat w e.init.toNat) (BitVec.ofNat w e.poly.toNat) bs := by
  rw [Engine.coreOf, hinit, hpoly, BitVec.ofNat_toNat, BitVec.ofNat_toNat]

/-- Settles O51: the steps of `started_runsTo_end`, from the start of the command. -/
theorem engineComputesTheChecksum : Obligations.EngineComputesTheChecksum := by
  intro s x w bs e v hsched _ heng hvalid hx hw hcovers
  obtain ⟨hstarted, hat, hinit, hpoly⟩ := commandAt_start hvalid hx hw hcovers
  rw [← heng] at hstarted hat hinit hpoly
  obtain ⟨e', hrun, hphase, hstatus, hresult⟩ := started_runsTo_end hstarted hat
  have hrun' := hrun []
  rw [List.append_nil, List.length_replicate, ← hsched, State.setSched_sched_self] at hrun'
  rw [Engine.coreOf_eq_crcCore w bs hinit hpoly] at hresult
  exact ⟨_, hrun', hphase, hstatus, hresult⟩

/-- After its last byte a command has one step, which leaves it idle with the masked value in `RESULT` (R139). -/
theorem CommandAt.stepsTo_end {cfg : Config} {e0 e : Engine} {w : Nat} {bs : List Byte} (hs : Started e0 w bs)
    (h : CommandAt e0 w bs (9 * bs.length) e) :
    ∃ e', e.StepsTo cfg e' ∧ e'.phase = .idle ∧ e'.status = statusSuccess ∧
      e'.result = (e0.coreOf w bs ^^^ cfg.xorOut.setWidth w).setWidth 32 := by
  obtain ⟨hfinish, hwsel⟩ := h.finish_of_all
  have hcrc := h.crc le_rfl
  rw [List.take_length] at hcrc
  refine ⟨_, stepsTo_finish hfinish, rfl, rfl, ?_⟩
  show finishValue cfg e.wsel e.crc = _
  rw [hwsel, hcrc, finishValue_setWidth cfg hs.width]

/-! ## The steps of the other agents -/

/-- While an instance is busy no host transaction changes anything of it (R119). -/
theorem transaction_busy {write : Bool} {r : Reg} {v : Word} {s t : State} (hbusy : s.eng.phase ≠ .idle)
    (hstatus : statusBusy s.eng.status = true)
    (hex : exec (if write then hostWriteInstr r v else hostReadInstr r) s = .next t) : t.eng = s.eng := by
  cases write with
  | false =>
    cases (exec_hostRead r s).symm.trans hex
    exact s.eng.afterRead_busy r hstatus
  | true =>
    by_cases hr : r = .cmd
    · subst hr
      cases (command_busy v hbusy).symm.trans ((exec_command v s).symm.trans hex)
      rfl
    · cases (hostWrite_busy r v hbusy).symm.trans ((exec_hostWrite r v s hr).symm.trans hex)
      rfl

/-- After the turn of an instance that leaves `e'` of it, an instance is as it was if `e'` is (R174). -/
theorem getElem?_after_turn {s u : State} {k : Nat} {e e' : Engine} (hengs : u.engines = s.engines)
    (he : s.engines[k]? = some e) (h : u.left.length = k → u.eng = e → e' = e) :
    (s.engines.set u.left.length e')[k]? = some e := by
  by_cases hk : u.left.length = k
  · subst hk
    have heng : u.eng = e := Option.some.inj ((hengs ▸ u.engines_getElem_selected).symm.trans he)
    rw [h rfl heng, List.getElem?_set_self (List.getElem?_eq_some_iff.1 he).1]
  · rw [List.getElem?_set_ne hk, he]

/-- A step that is no turn of a busy instance's engine and leaves its command changes nothing of the instance (R119, R150,
R177). -/
theorem step_keeps_busy {s t : State} {ev : Event} {rest : List Event} {k : Nat} {e : Engine}
    (hs : s.sched = ev :: rest) (hev : ev ≠ .engine k) (hleaves : ev.leavesCommand k = true)
    (he : s.engines[k]? = some e) (hbusy : e.phase ≠ .idle) (hstatus : statusBusy e.status = true)
    (hstep : step s = .next t) : t.engines[k]? = some e := by
  rcases step_cases hstep with ⟨i, u, hf, hex⟩ | hq
  · obtain ⟨⟨hengs, -⟩, -, -⟩ := fetch_run hf
    rw [State.engines_of_sameAround (exec_keepsBufAndAround hex).2, hengs]
    refine getElem?_after_turn hengs he ?_
    rintro rfl rfl
    rcases fetch_run_event hf with ⟨hsched, -⟩ | ⟨a, rest', r, -, -, rfl⟩
    · rcases hsched with hnil | ⟨rest', hturn⟩
      · cases hs.symm.trans hnil
      · cases hs.symm.trans hturn
        exact absurd rfl hev
    · exact transaction_busy hbusy hstatus hex
  · obtain ⟨u, e', ⟨hengs, -⟩, -, rfl, he'⟩ := fetch_quiet hq
    rw [State.setEng_engines, hengs]
    refine getElem?_after_turn hengs he ?_
    rintro rfl rfl
    rcases he' with ⟨-, hidle⟩ | ⟨-, hreset⟩ | ⟨⟨hidle, -⟩, -⟩
    · exact absurd hidle hbusy
    · cases hs.symm.trans hreset
      simp [Event.leavesCommand] at hleaves
    · exact absurd hidle hbusy

/-- A step keeps the parameters and takes its event off the list (R8, R12). -/
theorem step_cfg_sched {s t : State} (hstep : step s = .next t) : t.cfg = s.cfg ∧ t.sched = s.sched.tail := by
  rcases step_cases hstep with ⟨i, u, hf, hex⟩ | hq
  · obtain ⟨⟨-, -, hsched, hcfg, -⟩, -, -⟩ := fetch_run hf
    obtain ⟨-, hcfg', -, -, hsched', -⟩ := exec_keepsBufAndAround hex
    exact ⟨hcfg'.trans hcfg, hsched'.trans hsched⟩
  · obtain ⟨u, e', ⟨-, -, hsched, hcfg, -⟩, -, rfl, -⟩ := fetch_quiet hq
    exact ⟨hcfg, hsched⟩

theorem run_cfg_sched {s t : State} {evs rest : List Event} (hs : s.sched = evs ++ rest)
    (hrun : Host.Core.run Sys2Proof.core evs.length s = .next t) : t.cfg = s.cfg ∧ t.sched = rest := by
  induction evs generalizing s with
  | nil => cases hrun; exact ⟨rfl, hs⟩
  | cons ev evs ih =>
    obtain ⟨u, hu, hrest⟩ := run_succ_cases hrun
    obtain ⟨hcfg, hsched⟩ := step_cfg_sched hu
    rw [hs] at hsched
    obtain ⟨hcfg', hsched'⟩ := ih hsched hrest
    exact ⟨hcfg'.trans hcfg, hsched'⟩

/-! ## A command among them -/

/-- The turn of an instance's engine that has a step (R35, R174). -/
theorem step_ownTurn {s t : State} {rest : List Event} {k : Nat} {e e' : Engine} (hs : s.sched = .engine k :: rest)
    (he : s.engines[k]? = some e) (h : e.StepsTo s.cfg e') (hstep : step s = .next t) : t.engines[k]? = some e' := by
  obtain ⟨t', ht', hengs, -⟩ := h.takesTo.step (k := k) rfl he rest
  rw [← hs, State.setSched_sched_self] at ht'
  obtain rfl : t' = t := Host.Outcome.next.inj (ht'.symm.trans hstep)
  rw [hengs, List.getElem?_set_self (List.getElem?_eq_some_iff.1 he).1]

section Command
variable {s t : State} {k w j : Nat} {bs : List Byte} {e e0 : Engine} {rest : List Event}
  (h0 : Started e0 w bs) (hbusy : statusBusy e0.status = true)

theorem CommandAt.status (hat : CommandAt e0 w bs j e) : e.status = e0.status := by cases hat <;> rfl

include h0 hbusy

/-- A step moves a command on by one if it is its engine's turn, and else leaves it where it is. -/
theorem commandAt_step {ev : Event} (hs : s.sched = ev :: rest) (hleaves : ev.leavesCommand k = true)
    (he : s.engines[k]? = some e) (hat : CommandAt e0 w bs j e) (hj : j + [ev].count (.engine k) ≤ 9 * bs.length)
    (hstep : step s = .next t) :
    ∃ e', t.engines[k]? = some e' ∧ CommandAt e0 w bs (j + [ev].count (.engine k)) e' := by
  by_cases hev : ev = .engine k
  · subst hev
    rw [List.count_singleton_self] at hj ⊢
    obtain ⟨e', hstepsTo, hat'⟩ := hat.step (cfg := s.cfg) h0 hj
    exact ⟨e', step_ownTurn hs he hstepsTo hstep, hat'⟩
  · rw [List.count_singleton, if_neg (by simpa using hev)]
    exact ⟨e, step_keeps_busy hs hev hleaves he hat.busy (hat.status ▸ hbusy) hstep, hat⟩

/-- After a run a command has taken as many steps as its engine had turns (R143). -/
theorem commandAt_run {evs : List Event} (hs : s.sched = evs ++ rest)
    (hleaves : ∀ ev ∈ evs, ev.leavesCommand k = true) (he : s.engines[k]? = some e) (hat : CommandAt e0 w bs j e)
    (hj : j + evs.count (.engine k) ≤ 9 * bs.length)
    (hrun : Host.Core.run Sys2Proof.core evs.length s = .next t) :
    ∃ e', t.engines[k]? = some e' ∧ CommandAt e0 w bs (j + evs.count (.engine k)) e' := by
  induction evs generalizing s j e with
  | nil => cases hrun; exact ⟨e, he, hat⟩
  | cons ev evs ih =>
    obtain ⟨u, hu, hrest⟩ := run_succ_cases hrun
    obtain ⟨hev, hevs⟩ := List.forall_mem_cons.1 hleaves
    obtain ⟨-, hsched⟩ := step_cfg_sched hu
    have hcount : (ev :: evs).count (.engine k) = [ev].count (.engine k) + evs.count (.engine k) :=
      List.count_append (l₁ := [ev])
    rw [hcount, ← Nat.add_assoc] at hj ⊢
    obtain ⟨e', he', hat'⟩ := commandAt_step h0 hbusy hs hev he hat (by omega) hu
    rw [hs] at hsched
    exact ih hsched hevs he' hat' hj hrest

/-- After the last of its `9n + 1` steps a command has ended (R143). -/
theorem commandAt_run_end {evs : List Event} (hs : s.sched = evs ++ rest)
    (hleaves : ∀ ev ∈ evs, ev.leavesCommand k = true) (he : s.engines[k]? = some e) (hat : CommandAt e0 w bs 0 e)
    (hcount : evs.count (.engine k) = 9 * bs.length + 1) (hlast : evs.getLast? = some (.engine k))
    (hrun : Host.Core.run Sys2Proof.core evs.length s = .next t) :
    ∃ e', t.engines[k]? = some e' ∧ e'.phase = .idle ∧ e'.status = statusSuccess ∧
      e'.result = (e0.coreOf w bs ^^^ s.cfg.xorOut.setWidth w).setWidth 32 := by
  obtain ⟨evs', rfl⟩ := List.getLast?_eq_some_iff.1 hlast
  rw [List.length_append] at hrun
  obtain ⟨u, hu, hend⟩ := run_add_cases _ _ hrun
  obtain ⟨t', hstep, ht'⟩ := run_succ_cases hend
  cases ht'
  rw [List.append_assoc] at hs
  rw [List.count_append, List.count_singleton_self] at hcount
  obtain ⟨hcfg, hsched⟩ := run_cfg_sched hs hu
  obtain ⟨e₁, he₁, hat₁⟩ := commandAt_run h0 hbusy hs (fun ev hev => hleaves ev (List.mem_append_left _ hev)) he hat
    (by omega) hu
  rw [Nat.zero_add, Nat.succ.inj hcount] at hat₁
  obtain ⟨e', hstepsTo, hend'⟩ := hat₁.stepsTo_end (cfg := u.cfg) h0
  rw [hcfg] at hend'
  exact ⟨e', step_ownTurn hsched he₁ hstepsTo hstep, hend'⟩

end Command

/-- Settles O52: where the command stands after the turns its engine had, and its end (`commandAt_run`,
`commandAt_run_end`). -/
theorem everyInterleavingComputesTheChecksum : Obligations.EveryInterleavingComputesTheChecksum := by
  intro s t k evs rest x w bs e v hs hleaves _ he hvalid hx hw hcovers hrun
  obtain ⟨h0, hat, hinit, hpoly⟩ := commandAt_start hvalid hx hw hcovers
  have hbusy := acceptCommand_statusBusy hvalid hx
  refine ⟨fun m _ hm hcount => ?_, fun hcount hlast => ?_⟩
  · obtain ⟨e', he', hat'⟩ := commandAt_run h0 hbusy hs hleaves he hat (by omega) hrun
    rw [Nat.zero_add, hcount] at hat'
    exact ⟨e', he', (hat'.crc hm).trans (by rw [Engine.coreOf_eq_crcCore w _ hinit hpoly])⟩
  · obtain ⟨e', he', hphase, hstatus, hresult⟩ :=
      commandAt_run_end h0 hbusy hs hleaves he hat hcount hlast hrun
    rw [Engine.coreOf_eq_crcCore w bs hinit hpoly] at hresult
    exact ⟨e', he', hphase, hstatus, hresult⟩

end Sys2Proof.Machine
end

section
/-! SUPPORT. The exceptional conditions of the block: the turn of an idle and of a busy instance's engine (R164, R176), the
first failure of a command (R161), and its report in the accepting step (R163, R193). -/
namespace Sys2Proof.Machine

/-! ## The turn of the engine agent -/

/-- Settles O10: the turn selects no step, scheduled (`fetchEngine_idle` on the instance selected) or not. -/
theorem idleEngineTakesNoStep : Obligations.IdleEngineTakesNoStep := by
  refine ⟨fun s rest k e hs he hidle => ?_, fun s hs hidle => step_quiet ((fetch_nil hs).trans (fetchEngine_idle hidle))⟩
  obtain ⟨t, ht, hturn, rfl⟩ := State.select_turnOf rest he
  have hf : fetch s = .quiet t := by
    calc fetch s = fetchEvent (.engine k) (s.setSched rest) := fetch_cons hs
      _ = fetchEngine t := fetchEvent_engine_of_select ht
      _ = .quiet t := fetchEngine_idle hidle
  exact ⟨t, hturn, step_quiet hf⟩

/-- A busy instance whose `WSEL` is the code of a width has a step selected (R32, R75). -/
theorem exists_decodeFsm_of_busy {e : Engine} (hbusy : e.phase ≠ .idle) (hwsel : e.wsel ≠ .reserved) :
    ∃ i, decodeFsm e.selector = .instr i := by
  rw [decodeFsm_selector]
  cases hp : e.phase with
  | idle => exact absurd hp hbusy
  | xorByte => exact ⟨_, rfl⟩
  | finish => exact ⟨_, rfl⟩
  | reduce =>
    cases hw : e.wsel with
    | reserved => exact absurd hw hwsel
    | w8 => exact ⟨_, rfl⟩
    | w16 => exact ⟨_, rfl⟩
    | w32 => exact ⟨_, rfl⟩

/-- `IDX` of a command in progress lies below `LEN`, so `BUF` holds its byte if `LEN` is honest (R33, R161, R197). -/
theorem Engine.BusyInv.exists_byte {cfg : Config} {e : Engine} (h : e.BusyInv cfg) (hlen : e.lenHonest) :
    ∃ b, e.buf.read e.idx.toNat = some b := by
  obtain ⟨-, -, hend⟩ := validate_range h.valid
  have hlt : (e.idx.toNat : Int) < opLen e := h.idx_le.trans_lt hend
  exact Option.ne_none_iff_exists'.1 (hlen.2 _ (Int.ofNat_lt.1 hlt))

/-- An engine step completes, if `BUF` holds the byte at `IDX` (R135 to R139). -/
theorem engineStep_completes {i : Instr} {s : State} {b : Byte} (hi : isEngineStep i)
    (hb : s.eng.buf.read s.eng.idx.toNat = some b) : ∃ t, exec i s = .next t := by
  rcases hi with rfl | rfl | rfl | rfl | rfl
  · exact ⟨_, exec_stepXorByte_of_read hb⟩
  · exact ⟨_, reduceWith_eq crc8Reducer s⟩
  · exact ⟨_, reduceWith_eq crc16Reducer s⟩
  · exact ⟨_, reduceWith_eq crc32Reducer s⟩
  · exact ⟨_, exec_stepFinish s⟩

/-- Settles O49: the invariant selects a step (`exists_decodeFsm_of_busy`) and the host's duty gives its byte
(`Engine.BusyInv.exists_byte`). -/
theorem busyEngineNeverStops : Obligations.BusyEngineNeverStops := by
  intro s k rest e hinv hs he hbusy hlen
  have heinv := hinv e (List.mem_of_getElem? he)
  obtain ⟨i, hd⟩ := exists_decodeFsm_of_busy hbusy heinv.selector_legal
  obtain ⟨b, hb⟩ := (heinv.busy hbusy).exists_byte hlen
  obtain ⟨u, -, rfl, hstep⟩ := stepRunsTheSelectedEngineStep.1 s rest k e i hs he hd
  rw [hstep]
  exact engineStep_completes (selector_isEngineStep hd).1 hb

/-! ## The first failure of a command -/

section Validate
variable {p : MinRange} {width s e : Int} {len : Nat} {o : Option Reason}

/-- No other width has a selector (R73). -/
theorem wselOfWidth_eq_none : wselOfWidth width = none ↔ ¬(width = 8 ∨ width = 16 ∨ width = 32) := by
  unfold wselOfWidth
  split_ifs with h8 h16 h32 <;> simp [*]

/-- `o` is the answer that R161 gives to the operands: each cause with its own check failed and every earlier one passed,
and no cause with all of them passed. -/
def FirstFailure (p : MinRange) (width s e : Int) (len : Nat) : Option Reason → Prop
  | some .endBeforeStart => e < s
  | some .spanTooShort => s ≤ e ∧ e - s + 1 < (p.toNat : Int)
  | some .badWidth => s ≤ e ∧ (p.toNat : Int) ≤ e - s + 1 ∧ ¬(width = 8 ∨ width = 16 ∨ width = 32)
  | some .outOfBounds => s ≤ e ∧ (p.toNat : Int) ≤ e - s + 1 ∧ (width = 8 ∨ width = 16 ∨ width = 32) ∧
      (s < 0 ∨ s ≥ len ∨ e < 0 ∨ e ≥ len)
  | none => 0 ≤ s ∧ s ≤ e ∧ e < len ∧ (p.toNat : Int) ≤ e - s + 1 ∧ (width = 8 ∨ width = 16 ∨ width = 32)

theorem firstFailure_validate : FirstFailure p width s e len (validate p width s e len) := by
  unfold validate
  split_ifs with hend hspan hwidth hbounds
  · exact hend
  · exact ⟨not_lt.1 hend, hspan⟩
  · exact ⟨not_lt.1 hend, not_lt.1 hspan, wselOfWidth_eq_none.1 hwidth⟩
  · exact ⟨not_lt.1 hend, not_lt.1 hspan, wselOfWidth_eq_none.not_left.1 hwidth, hbounds⟩
  · exact ⟨by omega, not_lt.1 hend, by omega, not_lt.1 hspan, wselOfWidth_eq_none.not_left.1 hwidth⟩

theorem validate_of_firstFailure (h : FirstFailure p width s e len o) : validate p width s e len = o := by
  unfold validate
  match o, h with
  | some .endBeforeStart, hend => exact if_pos hend
  | some .spanTooShort, ⟨hend, hspan⟩ => rw [if_neg hend.not_gt, if_pos hspan]
  | some .badWidth, ⟨hend, hspan, hwidth⟩ =>
    rw [if_neg hend.not_gt, if_neg hspan.not_gt, if_pos (wselOfWidth_eq_none.2 hwidth)]
  | some .outOfBounds, ⟨hend, hspan, hwidth, hbounds⟩ =>
    rw [if_neg hend.not_gt, if_neg hspan.not_gt, if_neg (wselOfWidth_eq_none.not_left.2 hwidth), if_pos hbounds]
  | none, ⟨hs, hend, he, hspan, hwidth⟩ =>
    rw [if_neg hend.not_gt, if_neg hspan.not_gt, if_neg (wselOfWidth_eq_none.not_left.2 hwidth), if_neg (by omega)]

/-- `validate` gives the answer of R161 and no other. -/
theorem validate_eq_iff : validate p width s e len = o ↔ FirstFailure p width s e len o :=
  ⟨fun h => h ▸ firstFailure_validate, validate_of_firstFailure⟩

end Validate

/-- Settles O22: `validate_eq_iff` at each of the five answers. -/
theorem validateGivesTheFirstFailure : Obligations.ValidateGivesTheFirstFailure :=
  fun _ _ _ _ _ => ⟨validate_eq_iff, validate_eq_iff, validate_eq_iff, validate_eq_iff, validate_eq_iff,
    rfl, rfl, rfl, rfl⟩

/-! ## The report of a failure -/

/-- The report's `STATUS`, field by field (R163). -/
theorem statusError_eq (r : Reason) :
    statusError r = r.code.setWidth 32 <<< 4 ||| r.kind.code.setWidth 32 <<< 2 ||| 1#32 <<< 1 := by
  cases r <;> rfl

/-- A command that fails validation is reported in its accepting step, which leaves the instance idle (R163). -/
theorem command_error {s : State} {v : Word} {r : Reason} (hidle : s.eng.phase = .idle)
    (hfail : validate s.cfg.minRange (opWidth v) (opStart s.eng) (opEnd s.eng) (opLen s.eng) = some r) :
    command v s = .next (s.setEng { s.eng with cmd := v, result := 0, status := statusError r, bufHeld := true }) := by
  rw [command_idle v hidle, acceptCommand_error hfail]
  rfl

/-- Settles O26: `command_error`, with the fields of the report. -/
theorem failedCommandReportsItsError : Obligations.FailedCommandReportsItsError := by
  intro s v r hidle hfail
  rw [← statusError_eq]
  exact command_error hidle hfail

/-! ## A command straight after reset -/

/-- At its reset values an instance validates the range from 0 to 0 of no byte (R40), and `RESULT` is 0 already. -/
theorem command_error_afterReset {s : State} {v : Word} {r : Reason} (hreset : s.eng.atResetValues)
    (hfail : FirstFailure s.cfg.minRange (opWidth v) 0 0 0 (some r)) :
    command v s = .next (s.setEng { s.eng with cmd := v, status := statusError r, bufHeld := true }) := by
  obtain ⟨-, -, -, hstart, hend, hlen, -, hresult, hidle, -⟩ := hreset
  have hvalid : validate s.cfg.minRange (opWidth v) (opStart s.eng) (opEnd s.eng) (opLen s.eng) = some r := by
    rw [opStart, opEnd, opLen, hstart, hend, hlen]
    exact validate_of_firstFailure hfail
  rw [command_error hidle hvalid, ← hresult]

/-- The widths of the entry points, as operands (R73, R77). -/
theorem opWidth_supported_iff {v : Word} :
    (opWidth v = 8 ∨ opWidth v = 16 ∨ opWidth v = 32) ↔ (v = 8 ∨ v = 16 ∨ v = 32) := by
  unfold opWidth
  bv_omega

/-- Settles O28: the span of one byte is too short for `MIN_RANGE_LEN = 2`; otherwise the width is checked before the
bounds (R161, R166; log entry 10). -/
theorem commandAfterResetFails : Obligations.CommandAfterResetFails := by
  refine fun s v hreset => ⟨fun htwo => ?_, fun hone hwidth => ?_, fun hone hwidth => ?_⟩
  · have hfail : FirstFailure s.cfg.minRange (opWidth v) 0 0 0 (some .spanTooShort) := by
      rw [htwo]
      exact ⟨le_rfl, by decide⟩
    exact command_error_afterReset hreset hfail
  · have hfail : FirstFailure s.cfg.minRange (opWidth v) 0 0 0 (some .outOfBounds) := by
      rw [hone]
      exact ⟨le_rfl, by decide, opWidth_supported_iff.2 hwidth, by decide⟩
    exact command_error_afterReset hreset hfail
  · have hfail : FirstFailure s.cfg.minRange (opWidth v) 0 0 0 (some .badWidth) := by
      rw [hone]
      exact ⟨le_rfl, by decide, mt opWidth_supported_iff.1 hwidth⟩
    exact command_error_afterReset hreset hfail

end Sys2Proof.Machine
end

section
/-! SUPPORT. The window in which `BUF` may not be written: what opens it and what closes it (R190, R192, R196). -/
namespace Sys2Proof.Machine

/-- The window of R196 is open in `e` and closed in `e'`. -/
def Engine.closesWindow (e e' : Engine) : Prop := e.bufHeld = true ∧ e'.bufHeld = false

theorem Engine.not_closesWindow_of_eq {e e' : Engine} (h : e'.bufHeld = e.bufHeld) : ¬ e.closesWindow e' := by
  rintro ⟨hopen, hclosed⟩
  rw [h, hopen] at hclosed
  cases hclosed

/-! ## Host transactions -/

/-- No command closes the window: accepted it opens it, ignored it changes nothing (R100, R119). -/
theorem command_not_closesWindow {v : Word} {s t : State} (hex : command v s = .next t) :
    ¬ s.eng.closesWindow t.eng := by
  rcases command_cases hex with ⟨-, rfl⟩ | ⟨-, rfl⟩
  · exact Engine.not_closesWindow_of_eq rfl
  · obtain ⟨-, -, -, hheld⟩ := acceptCommand_frame s.cfg v s.eng
    exact fun ⟨_, hclosed⟩ => Bool.false_ne_true (hclosed.symm.trans hheld)

/-- No write of another register closes it (R104 to R110). -/
theorem hostWrite_not_closesWindow {r : Reg} {v : Word} {s t : State} (hex : hostWrite r v s = .next t) :
    ¬ s.eng.closesWindow t.eng := by
  rcases hostWrite_cases hex with ⟨-, rfl⟩ | ⟨-, rfl⟩
  · exact Engine.not_closesWindow_of_eq rfl
  · obtain ⟨-, -, -, -, -, -, hheld⟩ := storeOperand_frame r v s.eng
    exact Engine.not_closesWindow_of_eq hheld

/-- A read that closes it is one of `STATUS`, and returns `BUSY = 0` (R196). -/
theorem hostRead_closesWindow {r : Reg} {s t : State} (hex : hostRead r s = .next t)
    (hclose : s.eng.closesWindow t.eng) :
    r = .status ∧ statusBusy s.eng.status = false ∧ t.lastRead = some s.eng.status := by
  rw [hostRead_eq] at hex
  cases hex
  have hkept : ¬(r ≠ .status ∨ statusBusy s.eng.status = true) :=
    fun h => Engine.not_closesWindow_of_eq (Engine.afterRead_bufHeld h) hclose
  obtain ⟨hr, hbusy⟩ := not_or.1 hkept
  obtain rfl := not_not.1 hr
  exact ⟨rfl, Bool.eq_false_of_not_eq_true hbusy, rfl⟩

/-- A host transaction that closes the window is a read of `STATUS` that returns `BUSY = 0` (R196). -/
theorem transaction_closesWindow {write : Bool} {r : Reg} {v : Word} {s t : State}
    (hex : exec (if write then hostWriteInstr r v else hostReadInstr r) s = .next t)
    (hclose : s.eng.closesWindow t.eng) :
    write = false ∧ r = .status ∧ statusBusy s.eng.status = false ∧ t.lastRead = some s.eng.status := by
  cases write with
  | false => exact ⟨rfl, hostRead_closesWindow ((exec_hostRead r s).symm.trans hex) hclose⟩
  | true =>
    by_cases hr : r = .cmd
    · subst hr
      exact absurd hclose (command_not_closesWindow ((exec_command v s).symm.trans hex))
    · exact absurd hclose (hostWrite_not_closesWindow ((exec_hostWrite r v s hr).symm.trans hex))

/-! ## Steps -/

/-- A step with an instruction that closes the window of the acting instance is a bus access that reads its `STATUS`: no
engine step touches the window (R196). -/
theorem step_run_closesWindow {i : Instr} {s u t : State} (hf : fetch s = .run i u) (hex : exec i u = .next t)
    (hclose : u.eng.closesWindow t.eng) :
    ∃ a rest, s.sched = .bus a :: rest ∧ a.write = false ∧ a.addr = u.eng.base + 0x18 ∧
      statusBusy u.eng.status = false ∧ t.lastRead = some u.eng.status := by
  rcases fetch_run_event hf with ⟨-, hd⟩ | ⟨a, rest, r, hsched, haddr, rfl⟩
  · obtain ⟨hi, -⟩ := selector_isEngineStep hd
    obtain ⟨⟨-, -, -, hheld⟩, -⟩ := engineStep_operandsKept hi hex
    exact absurd hclose (Engine.not_closesWindow_of_eq hheld)
  · obtain ⟨hwrite, rfl, hbusy, hread⟩ := transaction_closesWindow hex hclose
    exact ⟨a, rest, hsched, hwrite, haddr, hbusy, hread⟩

/-- Everything a step can do to an instance: nothing; the instruction that it runs on it; its reset; or another `BUF` (R12,
R174). -/
theorem step_instance_cases {s t : State} {k : Nat} {e e' : Engine} (hstep : step s = .next t)
    (he : s.engines[k]? = some e) (he' : t.engines[k]? = some e') :
    e' = e ∨ (∃ i u, fetch s = .run i u ∧ exec i u = .next t ∧ u.eng = e ∧ t.eng = e') ∨
      (s.sched = .reset k :: s.sched.tail ∧ e' = e.doReset) ∨ ∃ m, e' = { e with buf := m } := by
  rcases step_cases hstep with ⟨i, u, hf, hex⟩ | hq
  · obtain ⟨⟨hengs, -⟩, -, -⟩ := fetch_run hf
    have ht : t.engines = (u.setEng t.eng).engines := by
      rw [State.setEng_engines, State.engines_of_sameAround (exec_keepsBufAndAround hex).2]
    rcases engines_after_turn hengs ht he he' with ⟨-, heng, rfl⟩ | hsame
    · exact .inr (.inl ⟨i, u, hf, hex, heng, rfl⟩)
    · exact .inl hsame
  · obtain ⟨u, x, ⟨hengs, -⟩, -, rfl, hx⟩ := fetch_quiet hq
    rcases engines_after_turn hengs rfl he he' with ⟨rfl, rfl, rfl⟩ | hsame
    · rcases hx with ⟨hsame, -⟩ | ⟨hreset, hsched⟩ | ⟨-, m, hbuf, -⟩
      · exact .inl hsame
      · exact .inr (.inr (.inl ⟨hsched, hreset⟩))
      · exact .inr (.inr (.inr ⟨m, hbuf⟩))
    · exact .inl hsame

/-- A step that closes the window of an instance is a read of its `STATUS` that returns `BUSY = 0`, or its reset (R196). -/
theorem step_closesWindow {s t : State} {k : Nat} {e e' : Engine} (hstep : step s = .next t)
    (he : s.engines[k]? = some e) (he' : t.engines[k]? = some e') (hclose : e.closesWindow e') :
    (∃ a rest, s.sched = .bus a :: rest ∧ a.write = false ∧ a.addr = e.base + 0x18 ∧
      statusBusy e.status = false ∧ t.lastRead = some e.status) ∨
    ∃ rest, s.sched = .reset k :: rest := by
  rcases step_instance_cases hstep he he' with rfl | ⟨i, u, hf, hex, rfl, rfl⟩ | ⟨hreset, -⟩ | ⟨m, rfl⟩
  · exact absurd hclose (Engine.not_closesWindow_of_eq rfl)
  · exact .inl (step_run_closesWindow hf hex hclose)
  · exact .inr ⟨_, hreset⟩
  · exact absurd hclose (Engine.not_closesWindow_of_eq rfl)

/-- The step of a reset puts a just reset instance in the place of its own and changes no other instance (R190). -/
theorem step_reset_engines {s t : State} {k : Nat} {rest : List Event} (hs : s.sched = .reset k :: rest)
    (hstep : step s = .next t) : ∃ e, s.engines[k]? = some e ∧ t.engines = s.engines.set k e.doReset := by
  rw [← s.setSched_sched_self, hs] at hstep
  obtain ⟨e, -, he, -⟩ := step_target_cases (ev := .reset k) rfl hstep
  obtain ⟨t', ht', hrep⟩ := Event.TakesTo.step (ev := .reset k) takesTo_reset rfl he rest
  obtain rfl : t' = t := Host.Outcome.next.inj (ht'.symm.trans hstep)
  exact ⟨e, he, hrep.engines⟩

/-- Settles O58: an accepted command opens the window (`acceptCommand_frame`), `step_closesWindow` names the steps that close
it, and a just reset instance has it closed. -/
theorem bufferWindowRunsFromTheCommandToTheStatusRead :
    Obligations.BufferWindowRunsFromTheCommandToTheStatusRead := by
  refine ⟨fun s t v hidle hex => ?_, fun s t k e e' hstep he he' hopen hclosed => ?_,
    fun s t k e' rest hs hstep he' => ?_⟩
  · cases (command_idle v hidle).symm.trans ((exec_command v s).symm.trans hex)
    obtain ⟨-, -, -, hheld⟩ := acceptCommand_frame s.cfg v s.eng
    exact hheld
  · exact step_closesWindow hstep he he' ⟨hopen, hclosed⟩
  · obtain ⟨e, he, hengs⟩ := step_reset_engines hs hstep
    rw [hengs, List.getElem?_set_self (List.getElem?_eq_some_iff.1 he).1] at he'
    cases he'
    rfl

end Sys2Proof.Machine
end
